-- ==== Sys2Proof/Word.lean ====
section
/-! DEFINITION. The machine's storage units. 10_state.md R20, 00_scope.md R8. -/

namespace Sys2Proof

/-- A word: 16 bits, an unsigned integer in [0, 65535] (R20, R8). Every memory cell, register and
stack entry is one word. -/
abbrev Word := BitVec 16

/-- A byte, in [0, 255] (R8): what `in` and `out` move. -/
abbrev Byte := BitVec 8

end Sys2Proof
end

