-- ==== Sys2Proof/Syntax.lean ====
section
/-! DEFINITION. The instructions: one constructor for each row of the opcode map, 30_encoding.md R66. -/

namespace Sys2Proof

/-- The number of a general register, 0 to 7 (00_scope.md R8, 10_state.md R22). -/
abbrev RegIdx := Fin 8

/-- An operand word by its class (10_state.md R21, 30_encoding.md R63). -/
inductive Operand where
  /-- A literal, [0, 32767]: it stands for itself. -/
  | lit (v : BitVec 15)
  /-- A register reference, [32768, 32775]: register `word - 32768`. -/
  | reg (r : RegIdx)
  /-- An invalid word, [32776, 65535]. A fault reports the word, so it is kept. -/
  | invalid (w : Word)
deriving DecidableEq, Repr

/-- The 22 instructions (R66). `a`, `b`, `c` are the operands at positions 1, 2, 3 (R60). -/
inductive Instr where
  /-- opcode 0, R150 -/
  | halt
  /-- opcode 1, R100 -/
  | set (a b : Operand)
  /-- opcode 2, R101 -/
  | push (a : Operand)
  /-- opcode 3, R102 -/
  | pop (a : Operand)
  /-- opcode 4, R110 -/
  | eq (a b c : Operand)
  /-- opcode 5, R111 -/
  | gt (a b c : Operand)
  /-- opcode 6, R120 -/
  | jmp (a : Operand)
  /-- opcode 7, R121 -/
  | jt (a b : Operand)
  /-- opcode 8, R122 -/
  | jf (a b : Operand)
  /-- opcode 9, R130 -/
  | add (a b c : Operand)
  /-- opcode 10, R131 -/
  | mult (a b c : Operand)
  /-- opcode 11, R132 -/
  | mod (a b c : Operand)
  /-- opcode 12, R133 -/
  | and (a b c : Operand)
  /-- opcode 13, R134 -/
  | or (a b c : Operand)
  /-- opcode 14, R135 -/
  | not (a b : Operand)
  /-- opcode 15, R140 -/
  | rmem (a b : Operand)
  /-- opcode 16, R141 -/
  | wmem (a b : Operand)
  /-- opcode 17, R123 -/
  | call (a : Operand)
  /-- opcode 18, R124 -/
  | ret
  /-- opcode 19, R151 -/
  | out (a : Operand)
  /-- opcode 20, R152: the table's `in`, a word Lean keeps for itself -/
  | inp (a : Operand)
  /-- opcode 21, R153 -/
  | nop
deriving DecidableEq, Repr

end Sys2Proof
end

