-- ==== Sys2Proof/WellFormed.lean ====
section
/-! DEFINITION. Operand kinds (30_encoding.md R64), lengths (R65), and which instructions are
encodable (`Instr.wf`) and which have every operand of its kind (`Instr.legal`). -/

namespace Sys2Proof

/-- The two kinds of operand position (R64). -/
inductive OperandKind where
  /-- read with `val`: a literal or a register reference -/
  | value
  /-- written with `tgt`: a register reference only -/
  | target
deriving DecidableEq, Repr

/-- The table of R64: the operands of an instruction in position order, each with its kind. -/
def Instr.shape : Instr → List (OperandKind × Operand)
  | .halt => []
  | .set a b => [(.target, a), (.value, b)]
  | .push a => [(.value, a)]
  | .pop a => [(.target, a)]
  | .eq a b c => [(.target, a), (.value, b), (.value, c)]
  | .gt a b c => [(.target, a), (.value, b), (.value, c)]
  | .jmp a => [(.value, a)]
  | .jt a b => [(.value, a), (.value, b)]
  | .jf a b => [(.value, a), (.value, b)]
  | .add a b c => [(.target, a), (.value, b), (.value, c)]
  | .mult a b c => [(.target, a), (.value, b), (.value, c)]
  | .mod a b c => [(.target, a), (.value, b), (.value, c)]
  | .and a b c => [(.target, a), (.value, b), (.value, c)]
  | .or a b c => [(.target, a), (.value, b), (.value, c)]
  | .not a b => [(.target, a), (.value, b)]
  | .rmem a b => [(.target, a), (.value, b)]
  | .wmem a b => [(.value, a), (.value, b)]
  | .call a => [(.value, a)]
  | .ret => []
  | .out a => [(.value, a)]
  | .inp a => [(.target, a)]
  | .nop => []

/-- `L(op) = 1 + arity(op)` in words (R65; the fixed length is decision D5, log 6). -/
def Instr.length (i : Instr) : Nat := 1 + i.shape.length

/-- An operand is encodable when its class is that of its word: an `invalid` operand holds an
invalid word (R63). -/
def Operand.wf : Operand → Bool
  | .lit _ => true
  | .reg _ => true
  | .invalid w => decide (32776 ≤ w.toNat)

/-- A well-formed instruction: every operand is encodable. Operands of the wrong kind are well
formed: they decode, and the instruction's rule faults on them (R72, R182, R183). -/
def Instr.wf (i : Instr) : Bool := i.shape.all fun ko => ko.2.wf

/-- R64: what each kind of position accepts without an operand fault. -/
def OperandKind.accepts : OperandKind → Operand → Bool
  | .value, .lit _ => true
  | .value, .reg _ => true
  | .value, .invalid _ => false
  | .target, .lit _ => false
  | .target, .reg _ => true
  | .target, .invalid _ => false

/-- An instruction each of whose operands is legal for its kind (R64, R72). -/
def Instr.legal (i : Instr) : Bool := i.shape.all fun ko => ko.1.accepts ko.2

/-- The operand an instruction writes with `tgt`, if it has one: always position 1 (R64, R86). -/
def Instr.target? (i : Instr) : Option Operand :=
  match i.shape with
  | (.target, a) :: _ => some a
  | _ => none

end Sys2Proof
end

