-- ==== Sys2Proof/Decode.lean ====
section
/-! DEFINITION. Decoding and encoding, 30_encoding.md R60 to R73, and the image's byte order,
20_memory.md R43. The unit of both is the 16-bit word. -/

namespace Sys2Proof

/-- Why words do not decode. -/
inductive DecodeReject where
  /-- the opcode word is in [22, 65535] (R67) -/
  | invalidOpcode (w : Word)
  /-- fewer words than the opcode's length (R65), or none -/
  | truncated
  /-- a byte stream that ends inside a word (70_reset_and_hazards.md R212, decision D18) -/
  | oddByteCount
deriving DecidableEq, Repr

/-- R63: the class of an operand word, with the literal `w[14:0]` or the register index `w[2:0]`. -/
def Operand.ofWord (w : Word) : Operand :=
  if w.toNat ≤ 32767 then .lit (w.setWidth 15)
  else if w.toNat ≤ 32775 then .reg ⟨w.toNat % 8, Nat.mod_lt _ (by decide)⟩
  else .invalid w

/-- The word of an operand (R63 read backwards; R70: `rN` encodes as `32768 + N`). -/
def Operand.toWord : Operand → Word
  | .lit v => v.setWidth 16
  | .reg r => BitVec.ofNat 16 (32768 + r.val)
  | .invalid w => w

/-- The opcode map (R66), from the opcode word and the three words after it. All 16 bits of the
opcode word are compared (R62, decision D25). Words beyond the instruction's length are not looked
at. `none`: the opcode word is in [22, 65535] (R67). -/
def decodeOp (op wa wb wc : Word) : Option Instr :=
  let a := Operand.ofWord wa
  let b := Operand.ofWord wb
  let c := Operand.ofWord wc
  match op.toNat with
  | 0 => some .halt
  | 1 => some (.set a b)
  | 2 => some (.push a)
  | 3 => some (.pop a)
  | 4 => some (.eq a b c)
  | 5 => some (.gt a b c)
  | 6 => some (.jmp a)
  | 7 => some (.jt a b)
  | 8 => some (.jf a b)
  | 9 => some (.add a b c)
  | 10 => some (.mult a b c)
  | 11 => some (.mod a b c)
  | 12 => some (.and a b c)
  | 13 => some (.or a b c)
  | 14 => some (.not a b)
  | 15 => some (.rmem a b)
  | 16 => some (.wmem a b)
  | 17 => some (.call a)
  | 18 => some .ret
  | 19 => some (.out a)
  | 20 => some (.inp a)
  | 21 => some .nop
  | _ => none

/-- Decoding of any words: the instruction at their head and the words after it, or the reason
there is none. -/
def decode : List Word → Except DecodeReject (Instr × List Word)
  | [] => .error .truncated
  | op :: rest =>
    match decodeOp op (rest.getD 0 0) (rest.getD 1 0) (rest.getD 2 0) with
    | none => .error (.invalidOpcode op)
    | some i =>
      if i.length ≤ rest.length + 1 then .ok (i, rest.drop (i.length - 1)) else .error .truncated

/-- The opcode number of an instruction (R66). -/
def Instr.opcode : Instr → Nat
  | .halt => 0
  | .set _ _ => 1
  | .push _ => 2
  | .pop _ => 3
  | .eq _ _ _ => 4
  | .gt _ _ _ => 5
  | .jmp _ => 6
  | .jt _ _ => 7
  | .jf _ _ => 8
  | .add _ _ _ => 9
  | .mult _ _ _ => 10
  | .mod _ _ _ => 11
  | .and _ _ _ => 12
  | .or _ _ _ => 13
  | .not _ _ => 14
  | .rmem _ _ => 15
  | .wmem _ _ => 16
  | .call _ => 17
  | .ret => 18
  | .out _ => 19
  | .inp _ => 20
  | .nop => 21

/-- The words of an instruction: the opcode number, then one word for each operand (R73). -/
def encode (i : Instr) : List Word :=
  BitVec.ofNat 16 i.opcode :: i.shape.map fun ko => ko.2.toWord

/-- R43, R212: image byte `2k` is the low half of word `k`, byte `2k + 1` the high half. `none`: a
lone last byte. -/
def wordsOfBytes : List Byte → Option (List Word)
  | [] => some []
  | [_] => none
  | lo :: hi :: rest => (wordsOfBytes rest).map ((hi ++ lo : Word) :: ·)

/-- The image bytes of words, little-endian (R43). -/
def bytesOfWords : List Word → List Byte
  | [] => []
  | w :: rest => w.setWidth 8 :: (w >>> 8).setWidth 8 :: bytesOfWords rest

/-- Decoding of any bytes, in the image's byte order. -/
def decodeBytes (bs : List Byte) : Except DecodeReject (Instr × List Word) :=
  match wordsOfBytes bs with
  | none => .error .oddByteCount
  | some ws => decode ws

/-- The four words of a number whose bit 0 is the least significant bit of the first word; bits
from `nbits` up are 0. -/
def tableWords (nbits w : Nat) : List Word :=
  let v := w % 2 ^ nbits
  [BitVec.ofNat 16 v, BitVec.ofNat 16 (v / 2 ^ 16), BitVec.ofNat 16 (v / 2 ^ 32),
    BitVec.ofNat 16 (v / 2 ^ 48)]

/-- What the decoder reads from an instruction given as one number, its operand words above `nbits`
being zero. -/
def decodeTableWord (nbits w : Nat) : Option Instr :=
  match decode (tableWords nbits w) with
  | .ok (i, _) => some i
  | .error _ => none

end Sys2Proof
end

