-- ==== Sys2Proof/Config.lean ====
section
/-! DEFINITION. The fixed parameters of 00_scope.md R6, and what the spec leaves free: one choice of the
engine and the environment's moves without end. -/

namespace Sys2Proof.Config

/-- `MEM_WORDS` (R6): memory has the addresses 0 to 32767. -/
@[simp] def memWords : Nat := 32768

/-- `MODULUS` (R6): `add` and `mult` work modulo 2^15. -/
@[simp] def modulus : Nat := 32768

/-- FREE VALUE (46_system_io.md R152, decision D15, 93_implementation_defined.md U8; log 15). When an
`in` finds a byte on offer and the cancel latch raised, "the choice is not determined": `true` takes
the byte, `false` ends the run as cancelled. The argument is `State.ties`, the number of such
choices made before, so each choice is a fresh one. It has no body: nothing can be proved of it. -/
opaque tieTakesByte : Nat → Bool

/-- A move that may come infinitely often (log 34): the producer offers a byte (R164), or the sink
becomes ready or stops being ready (R165). -/
inductive LaterMove where
  | byte (b : Byte)
  | sink (ready : Bool)
deriving DecidableEq, Repr

/-- FREE VALUE (50_interfaces_and_protocol.md R164, R165, R174; log 34). The moves of producer and
consumer before the engine's next turn, any finite number of them, in an environment that never ends:
"an arbitrary, possibly finite, possibly infinite sequence of bytes" the model "does not choose, plus
the freedom of the environment to delay each byte". The argument is the number `State.later` holds.
Between two turns of the engine there are finitely many moves, so the engine is never starved (R172).
It has no body: nothing can be proved of it. -/
opaque laterMoves : Nat → List LaterMove

end Sys2Proof.Config
end

