-- ==== Sys2Proof/Machine/State.lean ====
section
/-! DEFINITION. Every piece of state the spec gives the core, as plain data: 10_state.md, and the
boundary of 50_interfaces_and_protocol.md. -/

namespace Sys2Proof.Machine

/-- Memory cells as (address, word) pairs, addresses strictly rising, no entry equal to what an
unlisted address reads as (`Memory.wf`). The cell is the 16-bit word, the smallest unit the machine
addresses (20_memory.md R40, R41; log 1). -/
abbrev Memory := List (Nat × Word)

/-- The seven faults (60_exceptions.md R181); `FaultCode.number` gives their codes. -/
inductive FaultCode where
  /-- an invalid word in value position (R182) -/
  | invalidValue
  /-- a literal or an invalid word in target position (R183) -/
  | notARegister
  /-- an opcode word in [22, 65535] (R184) -/
  | invalidOpcode
  /-- `pop` on an empty stack (R185) -/
  | stackUnderflow
  /-- `mod` with divisor 0 (R186) -/
  | divisionByZero
  /-- an access above address 32767 (R187, decision D4) -/
  | addressOutOfRange
  /-- `push` or `call` on a full stack, finite `STACK_CAP` only (R188, decision D8) -/
  | stackOverflow
deriving DecidableEq, Repr

/-- The `F(info)` of `raise F(info)` (R190): a fault before the instruction address is added. -/
structure FaultInfo where
  code : FaultCode
  addr : Option Word
  value : Option Word
deriving DecidableEq, Repr

/-- The fault record (R181). -/
structure FaultRecord where
  code : FaultCode
  /-- the address of the opcode word of the instruction that faulted -/
  ip : Word
  /-- the address of the offending word -/
  addr : Option Word
  /-- the offending word -/
  value : Option Word
deriving DecidableEq, Repr

/-- Run status (10_state.md R26). -/
inductive RunStatus where
  | idle
  | running
  | haltedNormal
  | haltedCancelled
  | haltedFaulted (f : FaultRecord)
deriving DecidableEq, Repr

/-- The completion result (R28, R167; `cancelled` is decision D12, log 12). -/
inductive Result where
  | success
  | cancelled
  | failure (f : FaultRecord)
deriving DecidableEq, Repr

/-- Where in its cycle the engine stands between two steps (60_exceptions.md R200): at the top, or
inside a waiting `in` (46_system_io.md R152) or a waiting `out` (R151). Log 26. -/
inductive Phase where
  | top
  | waitIn
  | waitOut
deriving DecidableEq, Repr

/-- A move of one of the four agents (50_interfaces_and_protocol.md R160, R161). -/
inductive Event where
  /-- the controller raises `START` (R162) -/
  | start
  /-- the controller raises `CANCEL` (R163) -/
  | requestHalt
  /-- the controller, waiting for the completion result, takes it if it is there (R168) -/
  | takeResult
  /-- the producer offers one more byte (R164) -/
  | offer (b : Byte)
  /-- the consumer's sink becomes ready, or stops being ready, to accept a byte (R165) -/
  | sink (ready : Bool)
  /-- the engine's turn: one cycle (40_engine_and_operands.md R80) -/
  | engine
deriving DecidableEq, Repr

/-- The whole state. -/
structure State where
  /-- `x[0]` .. `x[7]` (R22) -/
  regs : Vector Word 8
  /-- `ip`: the address of the current instruction's opcode word (R23) -/
  ip : Word
  /-- `S`, top at the right end (R24) -/
  stack : List Word
  /-- `M` (R25) -/
  mem : Memory
  /-- run status (R26) -/
  run : RunStatus
  /-- the cancel latch (R27) -/
  cancel : Bool
  /-- the completion result (R28) -/
  result : Option Result
  /-- the controller has consumed the result (R28, R168) -/
  resultTaken : Bool
  /-- the end of the output stream has been signalled (R29, R166) -/
  outClosed : Bool
  /-- `out_trace`: the bytes the sink has accepted, oldest first (R29) -/
  outTrace : List Byte
  /-- where in its cycle the engine stands (R200) -/
  phase : Phase
  /-- `STACK_CAP`: `none` is unbounded (R6, R24). Fixed when the core is constructed (log 8). -/
  stackCap : Option Nat
  /-- the bytes the producer has offered and the engine has not taken, the one on offer first
  (R164) -/
  offered : List Byte
  /-- how many bytes the engine has taken (R170 (4)) -/
  taken : Nat
  /-- the sink will accept a byte now (R165) -/
  sinkReady : Bool
  /-- the moves still to come, the next one first (log 14) -/
  schedule : List Event
  /-- what comes when the schedule is used up: `some n`, the moves `Config.laterMoves n` and a turn of
  the engine, then `Config.laterMoves (n + 1)` and a turn of the engine, and so on without end (R164,
  R172, R174; log 34); `none`, nothing more from outside, and every turn is the engine's -/
  later : Option Nat
  /-- the MODEL's own counter: the argument of the free value `Config.tieTakesByte` (log 15) -/
  ties : Nat
deriving DecidableEq, Repr

/-- Why a step stops with a fault: never. Each of the spec's seven faults leaves a state the spec
describes (R190: run status HaltedFaulted, output closed, result published), so it is a next state
(log 11). The type has no constructor: "the model never stops with a fault" is then a fact of its
type, and it is safe, because no behaviour is cut off. -/
inductive Fault : Type where
deriving DecidableEq, Repr

/-- Why a step, or a construction, has no meaning. -/
inductive Refusal where
  /-- Raised by `exec` for an instruction without a meaning. No arm raises it: every row is
  modelled. Safe: it only stops. -/
  | notModelled (mnemonic : String)
  /-- Raised by the event `start` when `run` is not Idle: "starting the engine a second time" is a
  programmer error to which a model "gives ... no meaning" (R169, decision D16). Safe. -/
  | startedTwice
  /-- Raised by the event `takeResult` in Idle: reading the result "before the engine starts"
  (R169, decision D16). Safe. -/
  | resultBeforeStart
  /-- Raised by the event `takeResult` when the result has been taken (R169, decision D16). Safe. -/
  | resultTakenTwice
  /-- Raised by `State.ofImage` for an image longer than 32768 words: "a load error and no core is
  constructed" (R212, decision D18). Safe. -/
  | imageTooLong
  /-- Raised by `State.ofImageBytes` for an odd number of bytes (R212, decision D18). Safe. -/
  | imageOddByteCount
deriving DecidableEq, Repr

/-- The core right after reset, that is after its construction from the empty image (10_state.md
R33, 70_reset_and_hazards.md R210, R211): Idle, not started. Zero registers and the empty stack are
the spec's decisions D2 and D3 (logs 3, 4). The last eight fields are the boundary's (logs 8, 14, 15,
17, 26, 31, 34). -/
def State.reset : State where
  regs := Vector.replicate 8 0
  ip := 0
  stack := []
  mem := []
  run := .idle
  cancel := false
  result := none
  resultTaken := false
  outClosed := false
  outTrace := []
  phase := .top
  stackCap := none
  offered := []
  taken := 0
  sinkReady := true
  schedule := []
  later := none
  ties := 0

end Sys2Proof.Machine
end

