-- ==== Sys2Proof/Machine/Ops.lean ====
section
/-! DEFINITION. The named operations over memory, registers, stack, instruction pointer and the
channels; the end of an instruction; and the three ends of a run, taking a fault among them. There
is no return from a fault: "HaltedFaulted is terminal" (60_exceptions.md R191). -/

namespace Sys2Proof.Machine

/-! ## Memory (20_memory.md) -/

/-- What an address no entry lists reads as: memory is "initialized from the Program Image and zero
elsewhere" (R40, 10_state.md R33). -/
def Memory.unlisted : Word := 0

/-- `M[a]`: the word at address `a`. -/
def Memory.get : Memory → Nat → Word
  | [], _ => Memory.unlisted
  | (k, w) :: rest, a => if k = a then w else Memory.get rest a

/-- An entry in front of a memory, left out where it says what an unlisted address says anyway. -/
def Memory.entry (a : Nat) (v : Word) (rest : Memory) : Memory :=
  if v = Memory.unlisted then rest else (a, v) :: rest

/-- `M[a] <- v`, keeping the canonical form. -/
def Memory.set : Memory → Nat → Word → Memory
  | [], a, v => Memory.entry a v []
  | (k, w) :: rest, a, v =>
    if k < a then (k, w) :: Memory.set rest a v
    else if k = a then Memory.entry a v rest
    else Memory.entry a v ((k, w) :: rest)

/-- All addresses are at least `lo`, strictly rising, below 32768, and no entry is the unlisted
word. -/
def Memory.wfFrom : Nat → Memory → Bool
  | _, [] => true
  | lo, (k, w) :: rest =>
    decide (lo ≤ k) && decide (k < Config.memWords) && decide (w ≠ Memory.unlisted)
      && Memory.wfFrom (k + 1) rest

/-- The canonical form of memory. -/
def Memory.wf (m : Memory) : Bool := Memory.wfFrom 0 m

/-- The words of an image laid out from address `a` on, "verbatim" (70_reset_and_hazards.md R212). -/
def Memory.loadFrom : Nat → List Word → Memory
  | _, [] => []
  | a, w :: rest => Memory.entry a w (Memory.loadFrom (a + 1) rest)

/-- The fault of an access above the top of memory (60_exceptions.md R187). -/
def outOfRange (a : Nat) : FaultInfo :=
  { code := .addressOutOfRange, addr := some (BitVec.ofNat 16 a), value := none }

/-- `MemRead(a, 1)` (R42). -/
def State.memRead (s : State) (a : Nat) : Except FaultInfo Word :=
  if a < Config.memWords then .ok (s.mem.get a) else .error (outOfRange a)

/-- `MemWrite(a, 1, v)` (R42): all 16 bits of `v`. -/
def State.memWrite (s : State) (a : Nat) (v : Word) : Except FaultInfo State :=
  if a < Config.memWords then .ok { s with mem := s.mem.set a v } else .error (outOfRange a)

/-! ## Registers and stack (10_state.md) -/

/-- `x[r]` (R22). -/
def State.reg (s : State) (r : RegIdx) : Word := s.regs[r]

/-- `x[r] <- v` (R22): all 16 bits, no mask. -/
def State.setReg (s : State) (r : RegIdx) (v : Word) : State := { s with regs := s.regs.set r v }

/-- `push(v)`: `S <- S ++ [v]` (R24). -/
def State.pushWord (s : State) (v : Word) : State := { s with stack := s.stack ++ [v] }

/-- The top entry of `S`, if there is one (R24). -/
def State.topWord (s : State) : Option Word := s.stack.getLast?

/-- `S` without its top entry (R24). -/
def State.dropWord (s : State) : State := { s with stack := s.stack.dropLast }

/-- `|S| = STACK_CAP` for a finite capacity (R24; "at least" says the same of every stack that can
arise, `State.Inv`). -/
def State.stackFull (s : State) : Bool :=
  match s.stackCap with
  | none => false
  | some n => decide (n ≤ s.stack.length)

/-! ## The end of an instruction (40_engine_and_operands.md R84) -/

/-- The instruction is complete and `ip` takes the value `next`. -/
def State.retire (s : State) (next : Word) : State := { s with ip := next, phase := .top }

/-- Fallthrough: `ip <- ip + L(op)`. From `ip <= 32767` the sum does not wrap (R84). -/
def State.advance (s : State) (n : Nat) : State := s.retire (s.ip + BitVec.ofNat 16 n)

/-- The instruction waits; nothing else changes (60_exceptions.md R200). -/
def State.wait (s : State) (p : Phase) : State := { s with phase := p }

/-! ## The ends of a run (50_interfaces_and_protocol.md R166, R167) -/

/-- `run <- st; finish()`: the outbound channel closes and the result is published. `ip` stays. -/
def State.finish (s : State) (st : RunStatus) (r : Result) : State :=
  { s with run := st, outClosed := true, result := some r, phase := .top }

/-- `halt_normal` (R83). -/
def State.haltNormal (s : State) : State := s.finish .haltedNormal .success

/-- The run ends because the cancel latch was seen raised (R81, R199). -/
def State.haltCancelled (s : State) : State := s.finish .haltedCancelled .cancelled

/-- TAKING A FAULT, `raise F(info)` (60_exceptions.md R190): the record is built from the fault and
the current `ip`; no handler runs, nothing else is written. -/
def State.raise (s : State) (f : FaultInfo) : State :=
  let rec0 : FaultRecord := { code := f.code, ip := s.ip, addr := f.addr, value := f.value }
  s.finish (.haltedFaulted rec0) (.failure rec0)

/-- The numeric code of a fault (R181, decision D10). -/
def FaultCode.number : FaultCode → Nat
  | .invalidValue => 1
  | .notARegister => 2
  | .invalidOpcode => 3
  | .stackUnderflow => 4
  | .divisionByZero => 5
  | .addressOutOfRange => 6
  | .stackOverflow => 7

/-! ## The byte channels (50_interfaces_and_protocol.md R164, R165) -/

/-- The sink accepts `b`. -/
def State.emit (s : State) (b : Byte) : State := { s with outTrace := s.outTrace ++ [b] }

/-- The engine takes the byte on offer, leaving `rest` on offer. -/
def State.takeByte (s : State) (rest : List Byte) : State :=
  { s with offered := rest, taken := s.taken + 1 }

/-- One more byte-and-cancel choice has been made (log 15). -/
def State.countTie (s : State) : State := { s with ties := s.ties + 1 }

/-! ## Construction from an image (70_reset_and_hazards.md R210 to R212) -/

/-- The core constructed from an image of words, with a stack capacity; refused when the image is
longer than memory (decision D18). -/
def State.ofImage (cap : Option Nat) (image : List Word) : Host.Outcome State Fault Refusal :=
  if image.length ≤ Config.memWords then
    .next { State.reset with mem := Memory.loadFrom 0 image, stackCap := cap }
  else .refused .imageTooLong

end Sys2Proof.Machine
end

