-- ==== Sys2Proof/Machine/Operands.lean ====
section
/-! DEFINITION. The operand resolver, 40_engine_and_operands.md R85, R86, and the order of
evaluation R88. An operand at position `p` is the word at `ip + p` (R60): it is decoded before the
instruction's rule runs, and its fetch is checked here, where the rule reaches it. -/

namespace Sys2Proof.Machine

/-- The fetch of the operand word at position `p`: AddressOutOfRange when `ip + p > 32767` (R85). -/
def State.fetchCheck (s : State) (p : Nat) : Except FaultInfo Unit :=
  if s.ip.toNat + p < Config.memWords then .ok () else .error (outOfRange (s.ip.toNat + p))

/-- resolve-value, `val(p)` (R85): a literal is itself, a register reference the whole register,
unchecked (10_state.md R34); an invalid word raises InvalidValue (60_exceptions.md R182). -/
def State.val (s : State) (p : Nat) (o : Operand) : Except FaultInfo Word :=
  match s.fetchCheck p with
  | .error f => .error f
  | .ok () =>
    match o with
    | .lit v => .ok (v.setWidth 16)
    | .reg r => .ok (s.reg r)
    | .invalid w =>
      .error { code := .invalidValue, addr := some (s.ip + BitVec.ofNat 16 p), value := some w }

/-- resolve-target, `tgt(1, v)` (R86): only a register reference is accepted; anything else raises
NotARegister (60_exceptions.md R183). -/
def State.tgt (s : State) (o : Operand) (v : Word) : Except FaultInfo State :=
  match s.fetchCheck 1 with
  | .error f => .error f
  | .ok () =>
    match o with
    | .reg r => .ok (s.setReg r v)
    | _ => .error { code := .notARegister, addr := some (s.ip + 1), value := some o.toWord }

/-- Go on with the value of an operand, or take its fault. -/
def State.withVal (s : State) (p : Nat) (o : Operand) (k : Word → State) : State :=
  match s.val p o with
  | .ok v => k v
  | .error f => s.raise f

/-- Go on from the state in which the target holds `v`, or take the target's fault. -/
def State.withTgt (s : State) (o : Operand) (v : Word) (k : State → State) : State :=
  match s.tgt o v with
  | .ok t => k t
  | .error f => s.raise f

/-- The rules `vb <- val(2); vc <- val(3); tgt(1, f vb vc); ip <- ip + 4` (format F3). -/
def State.binaryRule (s : State) (f : Word → Word → Word) (a b c : Operand) : State :=
  s.withVal 2 b fun vb => s.withVal 3 c fun vc => s.withTgt a (f vb vc) fun t => t.advance 4

/-- The rules `vb <- val(2); tgt(1, f vb); ip <- ip + 3` (format F2 with a target). -/
def State.unaryRule (s : State) (f : Word → Word) (a b : Operand) : State :=
  s.withVal 2 b fun vb => s.withTgt a (f vb) fun t => t.advance 3

end Sys2Proof.Machine
end

