-- ==== Sys2Proof/Machine/ArithmeticLogic.lean ====
section
/-! DEFINITION. `add`, `mult`, `mod`, `and`, `or`, `not`: 44_arithmetic_logic.md R130 to R137. The
formulas are computed on natural numbers from the whole 16-bit operands and reduced where the rule
reduces (R137, decision D22). -/

namespace Sys2Proof.Machine

/-- R130: `(vb + vc) mod 32768`. -/
def addWord (vb vc : Word) : Word := BitVec.ofNat 16 ((vb.toNat + vc.toNat) % Config.modulus)

/-- R131: `(vb * vc) mod 32768`. -/
def multWord (vb vc : Word) : Word := BitVec.ofNat 16 ((vb.toNat * vc.toNat) % Config.modulus)

/-- R132: the unsigned remainder, not reduced further. Used with `vc` not 0. -/
def modWord (vb vc : Word) : Word := BitVec.ofNat 16 (vb.toNat % vc.toNat)

/-- R135: `(~vb) & 0x7FFF`. -/
def notWord (vb : Word) : Word := ~~~vb &&& 0x7FFF

/-- The fault of `mod` with divisor 0 (60_exceptions.md R186): `addr = ip + 3`, `value = 0`. -/
def divisionByZeroInfo (s : State) : FaultInfo :=
  { code := .divisionByZero, addr := some (s.ip + 3), value := some 0 }

/-- `add a,b,c` (R130). -/
def execAdd (a b c : Operand) (s : State) : Host.Outcome State Fault Refusal :=
  .next (s.binaryRule addWord a b c)

/-- `mult a,b,c` (R131). -/
def execMult (a b c : Operand) (s : State) : Host.Outcome State Fault Refusal :=
  .next (s.binaryRule multWord a b c)

/-- `mod a,b,c` (R132): the divisor is examined after both values and before the target. -/
def execMod (a b c : Operand) (s : State) : Host.Outcome State Fault Refusal :=
  .next (s.withVal 2 b fun vb => s.withVal 3 c fun vc =>
    if vc = 0 then s.raise (divisionByZeroInfo s)
    else s.withTgt a (modWord vb vc) fun t => t.advance 4)

/-- `and a,b,c` (R133): 16-bit, no mask. -/
def execAnd (a b c : Operand) (s : State) : Host.Outcome State Fault Refusal :=
  .next (s.binaryRule (fun vb vc => vb &&& vc) a b c)

/-- `or a,b,c` (R134): 16-bit, no mask. -/
def execOr (a b c : Operand) (s : State) : Host.Outcome State Fault Refusal :=
  .next (s.binaryRule (fun vb vc => vb ||| vc) a b c)

/-- `not a,b` (R135). -/
def execNot (a b : Operand) (s : State) : Host.Outcome State Fault Refusal :=
  .next (s.unaryRule notWord a b)

end Sys2Proof.Machine
end

