-- ==== Sys2Proof/Machine/Flags.lean ====
section
/-! DEFINITION. The core has no flags, no condition codes and no predicate registers (10_state.md
R30). What takes their place: a comparison's result is the word 0 or 1 (42_comparison.md), and a
conditional jump tests a whole word for zero (43_control_transfer.md). -/

namespace Sys2Proof.Machine

/-- "The result is exactly 0 or 1" (R110). -/
def truthWord (b : Bool) : Word := if b then 1 else 0

/-- R110: equality of the two whole words. -/
def eqWord (vb vc : Word) : Word := truthWord (decide (vb = vc))

/-- R111: strictly greater, unsigned, on the words as natural numbers. -/
def gtWord (vb vc : Word) : Word := truthWord (decide (vb.toNat > vc.toNat))

/-- R121: "non-zero" is tested on the whole word. -/
def nonZero (c : Word) : Bool := decide (c ≠ 0)

end Sys2Proof.Machine
end

