-- ==== Sys2Proof/Machine/Comparison.lean ====
section
/-! DEFINITION. `eq`, `gt`: 42_comparison.md R110, R111. -/

namespace Sys2Proof.Machine

/-- `eq a,b,c` (R110). -/
def execEq (a b c : Operand) (s : State) : Host.Outcome State Fault Refusal :=
  .next (s.binaryRule eqWord a b c)

/-- `gt a,b,c` (R111). -/
def execGt (a b c : Operand) (s : State) : Host.Outcome State Fault Refusal :=
  .next (s.binaryRule gtWord a b c)

end Sys2Proof.Machine
end

