-- ==== Sys2Proof/Machine/DataMovement.lean ====
section
/-! DEFINITION. `set`, `push`, `pop`: 41_data_movement.md R100 to R102. -/

namespace Sys2Proof.Machine

/-- The fault of a push on a full stack (60_exceptions.md R188). -/
def stackOverflowInfo : FaultInfo := { code := .stackOverflow, addr := none, value := none }

/-- The fault of `pop` on an empty stack (60_exceptions.md R185). -/
def stackUnderflowInfo : FaultInfo := { code := .stackUnderflow, addr := none, value := none }

/-- `set a,b` (R100): `v <- val(2); tgt(1, v); ip <- ip + 3`. -/
def execSet (a b : Operand) (s : State) : Host.Outcome State Fault Refusal :=
  .next (s.unaryRule (fun v => v) a b)

/-- `push a` (R101): the value, then the capacity check, then the push. -/
def execPush (a : Operand) (s : State) : Host.Outcome State Fault Refusal :=
  .next (s.withVal 1 a fun v =>
    if s.stackFull then s.raise stackOverflowInfo else (s.pushWord v).advance 2)

/-- `pop a` (R102): the stack is examined before the target; a fault leaves the stack as it was. -/
def execPop (a : Operand) (s : State) : Host.Outcome State Fault Refusal :=
  .next (match s.topWord with
    | none => s.raise stackUnderflowInfo
    | some v => s.withTgt a v fun t => t.dropWord.advance 2)

end Sys2Proof.Machine
end

