-- ==== Sys2Proof/Machine/ControlTransfer.lean ====
section
/-! DEFINITION. `jmp`, `jt`, `jf`, `call`, `ret`: 43_control_transfer.md R120 to R125. A target is
accepted into `ip` unchecked (R125). -/

namespace Sys2Proof.Machine

/-- `jmp a` (R120). -/
def execJmp (a : Operand) (s : State) : Host.Outcome State Fault Refusal :=
  .next (s.withVal 1 a fun t => s.retire t)

/-- `jt a,b` (R121): `b` is resolved whether or not the jump is taken (decision D5). -/
def execJt (a b : Operand) (s : State) : Host.Outcome State Fault Refusal :=
  .next (s.withVal 1 a fun c => s.withVal 2 b fun t => if nonZero c then s.retire t else s.advance 3)

/-- `jf a,b` (R122): the mirror image of `jt`. -/
def execJf (a b : Operand) (s : State) : Host.Outcome State Fault Refusal :=
  .next (s.withVal 1 a fun c => s.withVal 2 b fun t => if nonZero c then s.advance 3 else s.retire t)

/-- `call a` (R123): the target is resolved before the push; the return address is `ip + 2`
(decision D6). -/
def execCall (a : Operand) (s : State) : Host.Outcome State Fault Refusal :=
  .next (s.withVal 1 a fun t =>
    if s.stackFull then s.raise stackOverflowInfo else (s.pushWord (s.ip + 2)).retire t)

/-- `ret` (R124): an empty stack ends the run normally. -/
def execRet (s : State) : Host.Outcome State Fault Refusal :=
  .next (match s.topWord with
    | none => s.haltNormal
    | some t => s.dropWord.retire t)

end Sys2Proof.Machine
end

