-- ==== Sys2Proof/Machine/MemoryAccess.lean ====
section
/-! DEFINITION. `rmem`, `wmem`: 45_memory_access.md R140 to R142. -/

namespace Sys2Proof.Machine

/-- `rmem a,b` (R140): the word at the address `val(2)`, moved raw. -/
def execRmem (a b : Operand) (s : State) : Host.Outcome State Fault Refusal :=
  .next (s.withVal 2 b fun addr =>
    match s.memRead addr.toNat with
    | .error f => s.raise f
    | .ok w => s.withTgt a w fun t => t.advance 3)

/-- `wmem a,b` (R141): address first, data second; both are values. -/
def execWmem (a b : Operand) (s : State) : Host.Outcome State Fault Refusal :=
  .next (s.withVal 1 a fun addr => s.withVal 2 b fun w =>
    match s.memWrite addr.toNat w with
    | .error f => s.raise f
    | .ok t => t.advance 3)

end Sys2Proof.Machine
end

