-- ==== Sys2Proof/Machine/SystemIo.lean ====
section
/-! DEFINITION. `halt`, `out`, `in`, `nop`: 46_system_io.md R150 to R154. -/

namespace Sys2Proof.Machine

/-- `halt` (R150). -/
def execHalt (s : State) : Host.Outcome State Fault Refusal := .next s.haltNormal

/-- `out a` (R151): the byte `v & 0xFF`; the instruction waits until the sink accepts it and does
not look at the cancel latch. -/
def execOut (a : Operand) (s : State) : Host.Outcome State Fault Refusal :=
  .next (s.withVal 1 a fun v =>
    if s.sinkReady then (s.emit (v.setWidth 8)).advance 2 else s.wait .waitOut)

/-- The case "byte offered" of `in` (R152): the byte is taken first, and stays taken when the target
then faults. -/
def State.receive (s : State) (a : Operand) (b : Byte) (rest : List Byte) : State :=
  (s.takeByte rest).withTgt a (b.setWidth 16) fun t => t.advance 2

/-- `in a` (R152): no byte and no cancellation waits; cancellation alone ends the run; a byte alone
is taken; with both the choice is free (decision D15, `Config.tieTakesByte`). -/
def execInp (a : Operand) (s : State) : Host.Outcome State Fault Refusal :=
  .next (match s.offered with
    | [] => if s.cancel then s.haltCancelled else s.wait .waitIn
    | b :: rest =>
      if s.cancel then
        if Config.tieTakesByte s.ties then s.countTie.receive a b rest
        else s.countTie.haltCancelled
      else s.receive a b rest)

/-- `nop` (R153). -/
def execNop (s : State) : Host.Outcome State Fault Refusal := .next (s.advance 1)

end Sys2Proof.Machine
end

