-- ==== Sys2Proof/Machine/Engine.lean ====
section
/-! DEFINITION. The engine's cycle: 40_engine_and_operands.md R80 to R84. -/

namespace Sys2Proof.Machine

/-- The four words from `ip` on, as memory is now (R82, 20_memory.md R51): the opcode word and up to
three operand words. A word past address 32767 is only a filler: the instruction's rule raises
AddressOutOfRange where it reaches that position (`State.fetchCheck`; log 30). -/
def State.window (s : State) : List Word :=
  [s.mem.get s.ip.toNat, s.mem.get (s.ip.toNat + 1), s.mem.get (s.ip.toNat + 2),
    s.mem.get (s.ip.toNat + 3)]

/-- The fault of an opcode word above 21 (60_exceptions.md R184): `addr = ip`, `value` the word. -/
def invalidOpcodeInfo (s : State) (op : Word) : FaultInfo :=
  { code := .invalidOpcode, addr := some s.ip, value := some op }

/-- Steps 2 to 4 of the cycle: fetch, dispatch, execute. -/
def State.fetchAndRun (s : State) : Host.Outcome State Fault Refusal :=
  match s.memRead s.ip.toNat with
  | .error f => .next (s.raise f)
  | .ok op =>
    match decodeOp op (s.mem.get (s.ip.toNat + 1)) (s.mem.get (s.ip.toNat + 2))
        (s.mem.get (s.ip.toNat + 3)) with
    | none => .next (s.raise (invalidOpcodeInfo s op))
    | some i => exec i s

/-- The engine's turn (R80). Running: at the top of a cycle the cancel latch is read first (R81);
inside a waiting instruction that instruction goes on, and only `in` looks at the latch. In Idle and
in a Halted state "no step is taken and no state changes" (R90; R162; log 29). -/
def State.cycle (s : State) : Host.Outcome State Fault Refusal :=
  match s.run with
  | .running =>
    match s.phase with
    | .top => if s.cancel then .next s.haltCancelled else s.fetchAndRun
    | .waitIn => s.fetchAndRun
    | .waitOut => s.fetchAndRun
  | .idle => .next s
  | .haltedNormal => .next s
  | .haltedCancelled => .next s
  | .haltedFaulted _ => .next s

end Sys2Proof.Machine
end

