-- ==== Sys2Proof/Machine/Ports.lean ====
section
/-! DEFINITION. The ports of the core and the moves of the agents around it:
50_interfaces_and_protocol.md R160 to R174. -/

namespace Sys2Proof.Machine

/-- `START` (R162): in Idle the engine begins; otherwise a protocol error (R169, decision D16). -/
def State.start (s : State) : Host.Outcome State Fault Refusal :=
  match s.run with
  | .idle => .next { s with run := .running }
  | _ => .refused .startedTwice

/-- `CANCEL` (R163): sets the latch, at any time, in any run status (10_state.md R27). In a Halted
state nothing looks at the latch any more (log 27). -/
def State.requestHalt (s : State) : State := { s with cancel := true }

/-- The controller waits for the completion result and takes it when it is there (R168). Not there
yet: it goes on waiting, and nothing changes (log 28). Before start, or a second time: a protocol
error (R169, decision D16). -/
def State.takeResult (s : State) : Host.Outcome State Fault Refusal :=
  match s.run with
  | .idle => .refused .resultBeforeStart
  | _ =>
    if s.resultTaken then .refused .resultTakenTwice
    else
      match s.result with
      | none => .next s
      | some _ => .next { s with resultTaken := true }

/-- The producer offers one more byte, behind those not yet taken (R164). -/
def State.offer (s : State) (b : Byte) : State := { s with offered := s.offered ++ [b] }

/-- The sink's readiness (R165). A sink that is ready for the byte a waiting `out` presents stays ready
until it has it: "the side that is ready first waits" (R161; log 17). -/
def State.setSink (s : State) (ready : Bool) : State :=
  { s with sinkReady := if s.sinkReady = true ∧ s.phase = .waitOut then true else ready }

/-- One move of one agent. -/
def State.onEvent (s : State) : Event → Host.Outcome State Fault Refusal
  | .start => s.start
  | .requestHalt => .next s.requestHalt
  | .takeResult => s.takeResult
  | .offer b => .next (s.offer b)
  | .sink ready => .next (s.setSink ready)
  | .engine => s.cycle

/-- A move of an environment without end (log 34). -/
def Event.ofLater : Config.LaterMove → Event
  | .byte b => .offer b
  | .sink ready => .sink ready

/-- A round of an environment without end: its moves, then the engine's turn (R172; log 34). -/
def laterRound (n : Nat) : List Event := (Config.laterMoves n).map Event.ofLater ++ [.engine]

/-- With the schedule used up, an environment without end schedules its next round (log 34). -/
def State.refill (s : State) : State :=
  match s.schedule, s.later with
  | [], some n => { s with schedule := laterRound n, later := some (n + 1) }
  | _, _ => s

/-- The next move, and the state with that move struck off: the schedule's first (log 14), or the
engine's turn when nothing more comes. -/
def State.nextMove (s : State) : Event × State :=
  match s.refill.schedule with
  | e :: rest => (e, { s.refill with schedule := rest })
  | [] => (.engine, s.refill)

/-- One move of one of the four agents (R160). -/
def State.move (s : State) : Host.Outcome State Fault Refusal := s.nextMove.2.onEvent s.nextMove.1

/-- The core constructed from an image byte stream (70_reset_and_hazards.md R212); refused when it
ends inside a word (decision D18). -/
def State.ofImageBytes (cap : Option Nat) (bytes : List Byte) : Host.Outcome State Fault Refusal :=
  match wordsOfBytes bytes with
  | none => .refused .imageOddByteCount
  | some image => State.ofImage cap image

/-- Store words at consecutive addresses. -/
def Memory.setMany : Memory → Nat → List Word → Memory
  | m, _, [] => m
  | m, a, w :: rest => Memory.setMany (m.set a w) (a + 1) rest

/-- A running core whose next move is the engine's, at the top of a cycle, about to fetch `words`
(at most four): they are stored at `ip`, or at 0 with `ip` set to 0 where four words at `ip` would
not lie in memory (log 33). -/
def State.primed (s : State) (words : List Word) : State :=
  let at0 : Word := if s.ip.toNat + 4 ≤ Config.memWords then s.ip else 0
  { s with
    ip := at0
    mem := s.mem.setMany at0.toNat words
    run := .running
    cancel := false
    phase := .top
    schedule := []
    later := none }

end Sys2Proof.Machine
end

