-- ==== Sys2Proof/Machine/Step.lean ====
section
/-! DEFINITION. One step of the machine, and the placing of an instruction where it fetches next. -/

namespace Sys2Proof.Machine

/-- One step: one move of one of the four agents (50_interfaces_and_protocol.md R160). -/
def step (s : State) : Host.Outcome State Fault Refusal := s.move

/-- `s` with an instruction stored where `step` fetches next, so that the very next step runs it.
It stands for the load of an image and for `START` (log 2, log 33). -/
def State.withFetchWord (s : State) (nbits w : Nat) : State := s.primed (tableWords nbits w)

end Sys2Proof.Machine
end

