-- ==== Sys2Proof/Safety.lean ====
section
/-! DEFINITION. The vocabulary of the claims, written from the spec's rules apart from the model's
operations: what an operand is worth, when the resolver faults, the three ends of a run, the
invariant of a core that was constructed and only stepped. -/

namespace Sys2Proof.Machine

/-! ## Operands -/

/-- What `val` makes of an operand whose word lies in memory (R85): a literal itself, a register its
whole contents, an invalid word nothing. -/
def State.worth (s : State) : Operand → Option Word
  | .lit v => some (BitVec.ofNat 16 v.toNat)
  | .reg r => some s.regs[r]
  | .invalid _ => none

/-- A fault record about the instruction at `ip` (60_exceptions.md R181). -/
def State.record (s : State) (code : FaultCode) (addr value : Option Word) : FaultRecord :=
  { code := code, ip := s.ip, addr := addr, value := value }

/-- The operand word at position `p` lies past address 32767 (R85, decision D4). -/
def State.fetchFault (s : State) (p : Nat) : Option FaultRecord :=
  if 32767 < s.ip.toNat + p then
    some (s.record .addressOutOfRange (some (BitVec.ofNat 16 (s.ip.toNat + p))) none)
  else none

/-- The fault `val(p)` raises, if any (R85, R182). -/
def State.valueFault (s : State) (p : Nat) (o : Operand) : Option FaultRecord :=
  (s.fetchFault p).or <|
    match o with
    | .invalid w => some (s.record .invalidValue (some (BitVec.ofNat 16 (s.ip.toNat + p))) (some w))
    | _ => none

/-- The fault `tgt(1, v)` raises, if any (R86, R183). -/
def State.targetFault (s : State) (o : Operand) : Option FaultRecord :=
  (s.fetchFault 1).or <|
    match o with
    | .reg _ => none
    | _ => some (s.record .notARegister (some (BitVec.ofNat 16 (s.ip.toNat + 1))) (some o.toWord))

/-- The fault of a data access at the address an operand is worth (R187). -/
def State.addressFault (s : State) (o : Operand) : Option FaultRecord :=
  match s.worth o with
  | some a => if 32767 < a.toNat then some (s.record .addressOutOfRange (some a) none) else none
  | none => none

/-- The fault of a zero divisor (R186). -/
def State.divisorFault (s : State) (o : Operand) : Option FaultRecord :=
  if s.worth o = some 0 then
    some (s.record .divisionByZero (some (BitVec.ofNat 16 (s.ip.toNat + 3))) (some 0))
  else none

/-- The fault of a push on a full stack (R188): none while `STACK_CAP` is unbounded. -/
def State.overflowFault (s : State) : Option FaultRecord :=
  match s.stackCap with
  | none => none
  | some n => if n ≤ s.stack.length then some (s.record .stackOverflow none none) else none

/-- The fault of `pop` on an empty stack (R185). -/
def State.underflowFault (s : State) : Option FaultRecord :=
  if s.stack = [] then some (s.record .stackUnderflow none none) else none

/-- "The first fault met in this order is the one raised" (R88). -/
def firstFault : List (Option FaultRecord) → Option FaultRecord
  | [] => none
  | none :: rest => firstFault rest
  | some f :: _ => some f

/-! ## The ends of a run -/

/-- The state a fault leaves (R190): run status, output closed, result published; nothing else. -/
def State.faulted (s : State) (f : FaultRecord) : State :=
  { s with run := .haltedFaulted f, outClosed := true, result := some (.failure f), phase := .top }

/-- The state a normal halt leaves (R83, R150). -/
def State.endedNormally (s : State) : State :=
  { s with run := .haltedNormal, outClosed := true, result := some .success, phase := .top }

/-- The state a cancellation leaves (R81, R199). -/
def State.endedCancelled (s : State) : State :=
  { s with run := .haltedCancelled, outClosed := true, result := some .cancelled, phase := .top }

/-- A Halted run status (10_state.md R26). -/
def RunStatus.halted : RunStatus → Bool
  | .idle => false
  | .running => false
  | .haltedNormal => true
  | .haltedCancelled => true
  | .haltedFaulted _ => true

/-- The completion result that belongs to a run status (10_state.md R28). -/
def RunStatus.result : RunStatus → Option Result
  | .idle => none
  | .running => none
  | .haltedNormal => some .success
  | .haltedCancelled => some .cancelled
  | .haltedFaulted f => some (.failure f)

/-! ## Invariant -/

/-- What holds of every core that was constructed from an image and then only stepped. -/
structure State.Inv (s : State) : Prop where
  /-- memory is in its canonical form, with no cell above address 32767 -/
  memCanonical : s.mem.wf = true
  /-- the output is closed exactly when the run has ended (R29, R166) -/
  closedIffHalted : s.outClosed = s.run.halted
  /-- the result is the one that belongs to the run status (R28) -/
  resultOfRun : s.result = s.run.result
  /-- only a published result can have been taken (R168) -/
  takenPublished : s.resultTaken = true → s.run.halted = true
  /-- before start nothing has happened to `ip`, stack, output and input (R33, R162) -/
  idlePristine : s.run = .idle → s.ip = 0 ∧ s.stack = [] ∧ s.outTrace = [] ∧ s.taken = 0
  /-- the engine waits only while it runs, in the only two instructions that wait (R154, R200) -/
  waitsInInp : s.phase = .waitIn →
    s.run = .running ∧ s.ip.toNat ≤ 32767 ∧ s.mem.get s.ip.toNat = 20
  /-- a waiting `out` has its byte to present already (R151) -/
  waitsInOut : s.phase = .waitOut →
    s.run = .running ∧ s.ip.toNat + 1 ≤ 32767 ∧ s.mem.get s.ip.toNat = 19 ∧
      s.worth (Operand.ofWord (s.mem.get (s.ip.toNat + 1))) ≠ none
  /-- the stack is never deeper than `STACK_CAP` (R24) -/
  stackBounded : ∀ n, s.stackCap = some n → s.stack.length ≤ n

/-- The next move is `e`, and `t` is the state in which it is made, `s` with that move struck off: the
schedule's first; or the engine's turn, when nothing more comes from outside; or, when the schedule is
used up and the environment goes on without end, the first of its next round. -/
def State.MovesBy (s : State) (e : Event) (t : State) : Prop :=
  (∃ rest, s.schedule = e :: rest ∧ t = { s with schedule := rest }) ∨
  (s.schedule = [] ∧ s.later = none ∧ e = .engine ∧ t = s) ∨
  ∃ n rest, s.schedule = [] ∧ s.later = some n ∧ laterRound n = e :: rest ∧
    t = { s with schedule := rest, later := some (n + 1) }

/-- The next move is the engine's, and `t` is the state in which it makes it. -/
def State.EngineMoves (s t : State) : Prop := s.MovesBy .engine t

/-- The engine runs and does not stop at the cancellation check of R81: it is inside a waiting
instruction, or at the top of a cycle with the latch lowered. -/
def State.Fetches (s : State) : Prop := s.run = .running ∧ (s.phase = .top → s.cancel = false)

/-- Going on is the engine's own affair (R172): the current instruction is no `in` or `out` that could
have to wait, or what it waits for is there. At the top of a cycle a raised latch ends the run. -/
def State.CanGoOn (s : State) : Prop :=
  match s.phase with
  | .top => s.cancel = true ∨
      (s.mem.get s.ip.toNat ≠ 19 ∧ (s.mem.get s.ip.toNat = 20 → s.offered ≠ []))
  | .waitIn => s.offered ≠ [] ∨ s.cancel = true
  | .waitOut => s.sinkReady = true

/-- What the moves before an engine's turn, made in `t`, leave of the state `s` they begin in: memory,
registers, stack, `ip`, run status, output and the place in the cycle; a raised latch, the bytes on
offer, and a sink that is ready for a waiting `out`. -/
structure State.KeptUntilTurn (s t : State) : Prop where
  regs : t.regs = s.regs
  mem : t.mem = s.mem
  stack : t.stack = s.stack
  ip : t.ip = s.ip
  run : t.run = s.run
  phase : t.phase = s.phase
  outTrace : t.outTrace = s.outTrace
  latch : s.cancel = true → t.cancel = true
  onOffer : ∃ more, t.offered = s.offered ++ more
  sink : s.phase = .waitOut → s.sinkReady = true → t.sinkReady = true

/-- Every register and every stack entry is in [0, 32767] (10_state.md R34). -/
def State.Val15 (s : State) : Prop :=
  (∀ r : RegIdx, s.regs[r].toNat ≤ 32767) ∧ ∀ w ∈ s.stack, w.toNat ≤ 32767

end Sys2Proof.Machine
end

