-- ==== Sys2Proof/Certificates/Slice0/Obligations.lean ====
section
/-! DEFINITION. What is claimed of the model, rule by rule of `spec/`. Nothing is proved here. An
equation `exec i s = .next { s with ... }` states the result and the frame at once: every field not
named is as it was. AddressOutOfRange on an operand or opcode fetch is the spec's decision D4
(log 5), the fixed length and the resolving of every operand D5 and D6 (log 6), the order of faults
D7 (log 7), a fault that writes nothing D13 (log 13), words above 32767 used whole D22 (log 21); where a statement has more of the spec's
decisions, its docstring names them. -/

namespace Sys2Proof.Claims

open Sys2Proof.Machine

/-- The rule of an instruction `a := f(value(b), value(c))` of four words: its encoding, its result,
and its faults in order. -/
def ThreeOperandRule (opcode : Word) (mk : Operand → Operand → Operand → Instr)
    (f : Nat → Nat → Nat) : Prop :=
  ∀ (s : State) (a b c : Operand),
    encode (mk a b c) = [opcode, a.toWord, b.toWord, c.toWord] ∧
    (∀ (r : RegIdx) (x y : Word), s.ip.toNat + 3 ≤ 32767 → a = .reg r →
      s.worth b = some x → s.worth c = some y →
      exec (mk a b c) s = .next { s with
        regs := s.regs.set r (BitVec.ofNat 16 (f x.toNat y.toNat)), ip := s.ip + 4, phase := .top }) ∧
    ∀ fr, firstFault [s.valueFault 2 b, s.valueFault 3 c, s.targetFault a] = some fr →
      exec (mk a b c) s = .next (s.faulted fr)

/-- The rule of an instruction `a := f(value(b))` of three words: its encoding, its result, and its
faults in order. -/
def TwoOperandRule (opcode : Word) (mk : Operand → Operand → Instr) (f : Nat → Nat) : Prop :=
  ∀ (s : State) (a b : Operand),
    encode (mk a b) = [opcode, a.toWord, b.toWord] ∧
    (∀ (r : RegIdx) (x : Word), s.ip.toNat + 2 ≤ 32767 → a = .reg r → s.worth b = some x →
      exec (mk a b) s = .next { s with
        regs := s.regs.set r (BitVec.ofNat 16 (f x.toNat)), ip := s.ip + 3, phase := .top }) ∧
    ∀ fr, firstFault [s.valueFault 2 b, s.targetFault a] = some fr →
      exec (mk a b) s = .next (s.faulted fr)

/-- The rule of a conditional jump, taken when `taken` holds of the first value. -/
def ConditionalJumpRule (opcode : Word) (mk : Operand → Operand → Instr) (taken : Nat → Bool) : Prop :=
  ∀ (s : State) (a b : Operand),
    encode (mk a b) = [opcode, a.toWord, b.toWord] ∧
    (∀ x t : Word, s.ip.toNat + 2 ≤ 32767 → s.worth a = some x → s.worth b = some t →
      exec (mk a b) s = .next { s with
        ip := if taken x.toNat then t else s.ip + 3, phase := .top }) ∧
    ∀ fr, firstFault [s.valueFault 1 a, s.valueFault 2 b] = some fr →
      exec (mk a b) s = .next (s.faulted fr)

end Sys2Proof.Claims

open Sys2Proof Sys2Proof.Machine Sys2Proof.Claims

/-! ## Encoding -/

/-- Decoding the words of a well-formed instruction, whatever words follow, gives the instruction
back and leaves what follows (30_encoding.md R73, with R61 to R66). -/
def Obligations.DecodeOfEncodeGivesTheInstructionBack : Prop :=
  ∀ (i : Instr) (rest : List Word), i.wf = true → decode (encode i ++ rest) = .ok (i, rest)

/-- What decodes is a well-formed instruction, and its words are the words that were read
(30_encoding.md R62, R63, R65, R66). -/
def Obligations.EncodeOfDecodeGivesTheWordsBack : Prop :=
  ∀ (ws : List Word) (i : Instr) (rest : List Word), decode ws = .ok (i, rest) →
    i.wf = true ∧ encode i ++ rest = ws

/-- R63: an operand word falls into one of three classes by its numeric value, a literal `w[14:0]`
worth `w` itself, a reference to register `w - 32768 = w[2:0]` worth its contents, or invalid and
worth nothing. And a word sequence of each family, written out from 30_encoding.md R61, R63, R66,
decodes to its instruction. -/
def Obligations.SampleWordsOfEachFamilyDecode : Prop :=
  (∀ (s : State) (w : Word),
    (w.toNat ≤ 32767 → ∃ v : BitVec 15, Operand.ofWord w = .lit v ∧ v.toNat = w.toNat % 32768 ∧
      s.worth (Operand.ofWord w) = some w) ∧
    (32768 ≤ w.toNat → w.toNat ≤ 32775 → ∃ r : RegIdx, Operand.ofWord w = .reg r ∧
      r.val = w.toNat - 32768 ∧ r.val = w.toNat % 8 ∧
      s.worth (Operand.ofWord w) = some s.regs[r]) ∧
    (32776 ≤ w.toNat → ∃ v : Word, Operand.ofWord w = .invalid v ∧
      s.worth (Operand.ofWord w) = none)) ∧
  decode [1, 0x8000, 5] = .ok (.set (.reg 0) (.lit 5), []) ∧
  decode [5, 0x8007, 0x7FFF, 0x8001] = .ok (.gt (.reg 7) (.lit 0x7FFF) (.reg 1), []) ∧
  decode [17, 32] = .ok (.call (.lit 32), []) ∧
  decode [11, 0x8000, 7, 0x8008] = .ok (.mod (.reg 0) (.lit 7) (.invalid 0x8008), []) ∧
  decode [16, 50, 0x8002] = .ok (.wmem (.lit 50) (.reg 2), []) ∧
  decode [20, 0x8000, 0] = .ok (.inp (.reg 0), [0])

/-! ## The rules of the instructions -/

/-- R100, `set a,b`: register a := value(b), 3 words, faults in order. -/
def Obligations.SetCopiesValueToRegister : Prop := TwoOperandRule 1 .set fun x => x

/-- R101, `push a`: the resolved value goes on top of the stack; a full stack faults only under a
finite `STACK_CAP` (decision D8, log 8). -/
def Obligations.PushAppendsValueToStack : Prop :=
  ∀ (s : State) (a : Operand),
    (∀ x : Word, s.ip.toNat + 1 ≤ 32767 → s.worth a = some x → s.overflowFault = none →
      exec (.push a) s = .next { s with stack := s.stack ++ [x], ip := s.ip + 2, phase := .top }) ∧
    ∀ fr, firstFault [s.valueFault 1 a, s.overflowFault] = some fr →
      exec (.push a) s = .next (s.faulted fr)

/-- R102, `pop a`: the top entry goes to the register; the stack is examined before the target
(decision D7) and a fault leaves it as it was (R10). -/
def Obligations.PopMovesTopEntryToRegister : Prop :=
  ∀ (s : State) (a : Operand),
    (∀ (r : RegIdx) (x : Word) (below : List Word), s.ip.toNat + 1 ≤ 32767 → a = .reg r →
      s.stack = below ++ [x] →
      exec (.pop a) s = .next { s with
        regs := s.regs.set r x, stack := below, ip := s.ip + 2, phase := .top }) ∧
    ∀ fr, firstFault [s.underflowFault, s.targetFault a] = some fr →
      exec (.pop a) s = .next (s.faulted fr)

/-- R110, `eq a,b,c`: 1 if the two whole words are equal, else 0. -/
def Obligations.EqWritesOneExactlyWhenEqual : Prop :=
  ThreeOperandRule 4 .eq fun x y => if x = y then 1 else 0

/-- R111, `gt a,b,c`: 1 if b is strictly greater, unsigned, else 0. -/
def Obligations.GtWritesOneExactlyWhenGreater : Prop :=
  ThreeOperandRule 5 .gt fun x y => if y < x then 1 else 0

/-- R120, `jmp a`: `ip` takes the value, whatever word it is. -/
def Obligations.JmpSetsIpToValue : Prop :=
  ∀ (s : State) (a : Operand),
    (∀ t : Word, s.ip.toNat + 1 ≤ 32767 → s.worth a = some t →
      exec (.jmp a) s = .next { s with ip := t, phase := .top }) ∧
    ∀ fr, s.valueFault 1 a = some fr → exec (.jmp a) s = .next (s.faulted fr)

/-- R121, `jt a,b`: jumps when the first value is not zero, else falls through by 3 words; the faults
of `b` also when the jump is not taken (decision D5). -/
def Obligations.JtJumpsExactlyWhenNonZero : Prop := ConditionalJumpRule 7 .jt fun x => x != 0

/-- R122, `jf a,b`: jumps when the first value is zero, else falls through by 3 words. -/
def Obligations.JfJumpsExactlyWhenZero : Prop := ConditionalJumpRule 8 .jf fun x => x == 0

/-- R130, `add a,b,c`: the sum modulo 32768. -/
def Obligations.AddWritesSumModulo32768 : Prop :=
  ThreeOperandRule 9 .add fun x y => (x + y) % 32768

/-- R131, `mult a,b,c`: the product modulo 32768. -/
def Obligations.MultWritesProductModulo32768 : Prop :=
  ThreeOperandRule 10 .mult fun x y => (x * y) % 32768

/-- R132, `mod a,b,c`: the unsigned remainder for a divisor other than 0; divisor 0 raises
DivisionByZero after both values and before the target. -/
def Obligations.ModWritesRemainderOrFaultsOnZero : Prop :=
  ∀ (s : State) (a b c : Operand),
    encode (.mod a b c) = [11, a.toWord, b.toWord, c.toWord] ∧
    (∀ (r : RegIdx) (x y : Word), s.ip.toNat + 3 ≤ 32767 → a = .reg r →
      s.worth b = some x → s.worth c = some y → y ≠ 0 →
      exec (.mod a b c) s = .next { s with
        regs := s.regs.set r (BitVec.ofNat 16 (x.toNat % y.toNat)), ip := s.ip + 4,
        phase := .top }) ∧
    ∀ fr, firstFault [s.valueFault 2 b, s.valueFault 3 c, s.divisorFault c, s.targetFault a] = some fr →
      exec (.mod a b c) s = .next (s.faulted fr)

/-- R133, `and a,b,c`: the 16-bit bitwise and, unmasked. -/
def Obligations.AndWritesBitwiseAnd : Prop := ThreeOperandRule 12 .and fun x y => x &&& y

/-- R134, `or a,b,c`: the 16-bit bitwise or, unmasked. -/
def Obligations.OrWritesBitwiseOr : Prop := ThreeOperandRule 13 .or fun x y => x ||| y

/-- R135, `not a,b`: the complement masked to 15 bits, "equivalently 32767 - (vb mod 32768)". -/
def Obligations.NotWritesFifteenBitComplement : Prop :=
  TwoOperandRule 14 .not fun x => 32767 - x % 32768

/-- R140, `rmem a,b`: the raw word at the address value(b); an address above 32767 faults before the
target is examined (decision D4). -/
def Obligations.RmemLoadsRawWord : Prop :=
  ∀ (s : State) (a b : Operand),
    (∀ (r : RegIdx) (x : Word), s.ip.toNat + 2 ≤ 32767 → a = .reg r → s.worth b = some x →
      x.toNat ≤ 32767 →
      exec (.rmem a b) s = .next { s with
        regs := s.regs.set r (s.mem.get x.toNat), ip := s.ip + 3, phase := .top }) ∧
    ∀ fr, firstFault [s.valueFault 2 b, s.addressFault b, s.targetFault a] = some fr →
      exec (.rmem a b) s = .next (s.faulted fr)

/-- R141, `wmem a,b`: the raw word value(b) is stored at the address value(a) and is read back
there; an address above 32767 faults and memory is unchanged (decision D4). -/
def Obligations.WmemStoresRawWord : Prop :=
  ∀ (s : State) (a b : Operand),
    (∀ x w : Word, s.ip.toNat + 2 ≤ 32767 → s.worth a = some x → s.worth b = some w →
      x.toNat ≤ 32767 → s.mem.wf = true →
      ∃ m : Memory, exec (.wmem a b) s = .next { s with mem := m, ip := s.ip + 3, phase := .top } ∧
        m.wf = true ∧ ∀ y, m.get y = if y = x.toNat then w else s.mem.get y) ∧
    ∀ fr, firstFault [s.valueFault 1 a, s.valueFault 2 b, s.addressFault a] = some fr →
      exec (.wmem a b) s = .next (s.faulted fr)

/-- R123, `call a`: pushes `ip + 2` (decision D6) and jumps to the value resolved before the push;
a full stack faults only under a finite `STACK_CAP` (decision D8, log 8). -/
def Obligations.CallPushesReturnAddressAndJumps : Prop :=
  ∀ (s : State) (a : Operand),
    (∀ t : Word, s.ip.toNat + 1 ≤ 32767 → s.worth a = some t → s.overflowFault = none →
      exec (.call a) s = .next { s with
        stack := s.stack ++ [BitVec.ofNat 16 (s.ip.toNat + 2)], ip := t, phase := .top }) ∧
    ∀ fr, firstFault [s.valueFault 1 a, s.overflowFault] = some fr →
      exec (.call a) s = .next (s.faulted fr)

/-- R124, `ret`: `ip` takes the top entry, whatever word it is; on an empty stack the run ends
normally with `ip` unchanged. -/
def Obligations.RetPopsIpOrHaltsNormally : Prop :=
  ∀ s : State,
    (∀ (t : Word) (below : List Word), s.stack = below ++ [t] →
      exec .ret s = .next { s with stack := below, ip := t, phase := .top }) ∧
    (s.stack = [] → exec .ret s = .next s.endedNormally)

/-- R150, `halt`: the run ends normally, the output closes, the result is Success, `ip` stays at the
`halt` (decision D13, log 13). -/
def Obligations.HaltEndsRunNormally : Prop :=
  ∀ s : State, exec .halt s = .next s.endedNormally

/-- R151, `out a`: the low 8 bits of the value are appended to the output when the sink is ready;
otherwise the instruction waits and nothing else changes, whatever the cancel latch. -/
def Obligations.OutEmitsLowByteOrWaits : Prop :=
  ∀ (s : State) (a : Operand),
    (∀ x : Word, s.ip.toNat + 1 ≤ 32767 → s.worth a = some x →
      exec (.out a) s = .next (if s.sinkReady then
          { s with
            outTrace := s.outTrace ++ [BitVec.ofNat 8 (x.toNat % 256)], ip := s.ip + 2,
            phase := .top }
        else { s with phase := .waitOut })) ∧
    ∀ fr, s.valueFault 1 a = some fr → exec (.out a) s = .next (s.faulted fr)

/-- R152, `in a`, without the simultaneous case: a byte on offer is taken and zero-extended into the
register, and stays taken when the target faults (decision D7); with no byte the instruction waits,
or ends the run when the latch is raised. -/
def Obligations.InTakesByteOrWaitsOrIsCancelled : Prop :=
  ∀ (s : State) (a : Operand),
    (∀ (r : RegIdx) (b : Byte) (rest : List Byte), s.ip.toNat + 1 ≤ 32767 → a = .reg r →
      s.offered = b :: rest → s.cancel = false →
      exec (.inp a) s = .next { s with
        regs := s.regs.set r (BitVec.ofNat 16 b.toNat), offered := rest, taken := s.taken + 1,
        ip := s.ip + 2, phase := .top }) ∧
    (∀ (b : Byte) (rest : List Byte) (fr : FaultRecord), s.offered = b :: rest →
      s.cancel = false → s.targetFault a = some fr →
      exec (.inp a) s =
        .next (State.faulted { s with offered := rest, taken := s.taken + 1 } fr)) ∧
    (s.offered = [] → s.cancel = true → exec (.inp a) s = .next s.endedCancelled) ∧
    (s.offered = [] → s.cancel = false → exec (.inp a) s = .next { s with phase := .waitIn })

/-- R152 and decision D15: with a byte on offer and the latch raised, `in` either takes the byte, as
with the latch lowered, or ends the run as cancelled with no byte taken. Which of the two, the free
value `Config.tieTakesByte` of the model's own counter says (log 15); nothing is assumed of it. -/
def Obligations.InWithByteAndCancelDoesEither : Prop :=
  ∀ (s : State) (a : Operand) (b : Byte) (rest : List Byte), s.offered = b :: rest →
    s.cancel = true →
    (∀ r : RegIdx, s.ip.toNat + 1 ≤ 32767 → a = .reg r →
      exec (.inp a) s = .next (if Config.tieTakesByte s.ties then
          { s with
            regs := s.regs.set r (BitVec.ofNat 16 b.toNat), offered := rest, taken := s.taken + 1,
            ip := s.ip + 2, phase := .top, ties := s.ties + 1 }
        else State.endedCancelled { s with ties := s.ties + 1 })) ∧
    (∀ fr, s.targetFault a = some fr →
      exec (.inp a) s = .next (if Config.tieTakesByte s.ties then
          State.faulted { s with offered := rest, taken := s.taken + 1, ties := s.ties + 1 } fr
        else State.endedCancelled { s with ties := s.ties + 1 }))

/-- R153, `nop`: only `ip` moves, by one word. -/
def Obligations.NopOnlyAdvancesIp : Prop :=
  ∀ s : State, exec .nop s = .next { s with ip := s.ip + 1, phase := .top }

/-! ## The step cycle -/

/-- R80 to R84: when the engine moves and does not stop at the cancellation check, and the words at
`ip` decode to `i`, the step is `exec i` in that state (with the move struck off). The
meaning itself moves `ip`. -/
def Obligations.StepRunsTheDecodedInstruction : Prop :=
  ∀ (s t : State) (i : Instr) (rest : List Word), s.EngineMoves t → s.Fetches →
    s.ip.toNat ≤ 32767 → decode s.window = .ok (i, rest) → step s = exec i t

/-- R82, decision D4: an opcode fetch above address 32767 raises AddressOutOfRange(ip). -/
def Obligations.OpcodeFetchAboveTopFaults : Prop :=
  ∀ s t : State, s.EngineMoves t → s.Fetches → 32767 < s.ip.toNat →
    step s = .next (t.faulted (s.record .addressOutOfRange (some s.ip) none))

/-- R184: an opcode word in [22, 65535] raises InvalidOpcode, code 3, with `addr = ip` and the word
as `value`. Code and record are decisions D10 and D11 (log 10), all 16 bits D25 (log 24). -/
def Obligations.OpcodeAboveTwentyOneFaults : Prop :=
  FaultCode.number .invalidOpcode = 3 ∧
  ∀ s t : State, s.EngineMoves t → s.Fetches → s.ip.toNat ≤ 32767 →
    22 ≤ (s.mem.get s.ip.toNat).toNat →
    step s = .next (t.faulted
      (s.record .invalidOpcode (some s.ip) (some (s.mem.get s.ip.toNat))))

/-- R81, R189: at the top of a cycle a raised latch ends the run as cancelled, whatever `ip` and
memory hold, and `M`, `x`, `S`, `ip` stay. -/
def Obligations.RaisedLatchEndsRunAtTopOfCycle : Prop :=
  ∀ s t : State, s.EngineMoves t → s.run = .running → s.phase = .top → s.cancel = true →
    step s = .next t.endedCancelled

/-- R152 (D0's scenario of a cancelled blocked `in`): the engine's next turn ends the run, without
any byte. And R172, the progress of the engine (decision D20, log 19): from every running state, after
some number of moves the engine has its turn, and when going on was its own affair it then completes
the current instruction or ends the run. The premise that no `START` is still to come leaves out only
the controller's protocol error (R169), and it holds again afterwards. -/
def Obligations.RaisedLatchEndsBlockedIn : Prop :=
  (∀ s t : State, s.Inv → s.EngineMoves t → s.phase = .waitIn → s.offered = [] → s.cancel = true →
    step s = .next t.endedCancelled) ∧
  ∀ s : State, s.Inv → s.run = .running → Event.start ∉ s.schedule →
    ∃ (k : Nat) (t u v : State), Sys2Proof.core.run k s = .next t ∧ t.EngineMoves u ∧
      step t = .next v ∧ s.KeptUntilTurn u ∧ (s.CanGoOn → v.phase = .top) ∧
      Event.start ∉ v.schedule

/-- R200, R217 (a), (b): when nothing more comes from outside, a waiting `out` stays as it is for ever,
whatever the cancel latch, and a waiting `in` with the latch lowered stays as it is for ever. -/
def Obligations.WaitChangesNoStateHoweverLong : Prop :=
  ∀ (n : Nat) (s : State), s.Inv → s.schedule = [] → s.later = none →
    (s.phase = .waitOut → s.sinkReady = false → Sys2Proof.core.run n s = .next s) ∧
    (s.phase = .waitIn → s.offered = [] → s.cancel = false → Sys2Proof.core.run n s = .next s)

/-- R200 (log 26): going on with a waiting instruction is the same instruction over again; where in
its cycle the engine stands does not enter an instruction's effect. -/
def Obligations.ResumedInstructionIsTheSame : Prop :=
  ∀ (i : Instr) (s : State) (p : Phase), exec i { s with phase := p } = exec i s

/-- Log 30, the model's own choice: the filler a fetch supplies for operand words past address 32767
never enters an instruction's effect. -/
def Obligations.WordsPastTheTopAreNeverUsed : Prop :=
  ∀ (s : State) (op wa wb wc wa' wb' wc' : Word) (i i' : Instr),
    decodeOp op wa wb wc = some i → decodeOp op wa' wb' wc' = some i' →
    (s.ip.toNat + 1 ≤ 32767 → wa = wa') → (s.ip.toNat + 2 ≤ 32767 → wb = wb') →
    (s.ip.toNat + 3 ≤ 32767 → wc = wc') → exec i s = exec i' s

/-! ## The controller's, producer's and consumer's moves -/

/-- R162, R169 (decision D16): START begins an idle core and is refused otherwise. -/
def Obligations.StartBeginsAnIdleCoreOnce : Prop :=
  ∀ s t : State, s.MovesBy .start t →
    (s.run = .idle → step s = .next { t with run := .running }) ∧
    (s.run ≠ .idle → step s = .refused .startedTwice)

/-- R163, R164, R165 (logs 17, 27, 34): CANCEL raises the latch, an offered byte goes behind those not
taken, the sink's readiness is as told, in every run status, but that a sink ready for the byte of a
waiting `out` stays ready (R161); and nothing else changes. So also for the moves of an environment
that goes on without end. -/
def Obligations.OutsideMovesWriteOneFieldEach : Prop :=
  ∀ s t : State,
    (s.MovesBy .requestHalt t → step s = .next { t with cancel := true }) ∧
    (∀ b, s.MovesBy (.offer b) t → step s = .next { t with offered := s.offered ++ [b] }) ∧
    (∀ r, s.MovesBy (.sink r) t → step s = .next { t with
      sinkReady := if t.sinkReady = true ∧ t.phase = .waitOut then true else r })

/-- R168, R169 (decision D16; log 28): a published result is taken once; taking it again, or before
start, is refused; before it is published the controller waits and nothing changes. -/
def Obligations.ResultIsTakenAtMostOnce : Prop :=
  ∀ s t : State, s.MovesBy .takeResult t →
    (s.run = .idle → step s = .refused .resultBeforeStart) ∧
    (s.run ≠ .idle → s.resultTaken = true → step s = .refused .resultTakenTwice) ∧
    (∀ r, s.run ≠ .idle → s.resultTaken = false → s.result = some r →
      step s = .next { t with resultTaken := true }) ∧
    (s.run ≠ .idle → s.resultTaken = false → s.result = none →
      step s = .next t)

/-! ## Memory and construction -/

/-- R42, R45: a write followed by a read of the same address gives the value written, and every
other address reads as before. -/
def Obligations.MemoryReadsWhatWasLastWritten : Prop :=
  ∀ (m : Memory) (a b : Nat) (v : Word), m.wf = true →
    (m.set a v).get b = if a = b then v else m.get b

/-- Every write to an address of the machine keeps memory's canonical form (R40). -/
def Obligations.MemoryWriteKeepsCanonicalForm : Prop :=
  ∀ (m : Memory) (a : Nat) (v : Word), m.wf = true → a ≤ 32767 → (m.set a v).wf = true

/-- Canonical memories that hold the same words are the same data. -/
def Obligations.CanonicalMemoriesWithEqualWordsAreEqual : Prop :=
  ∀ m n : Memory, m.wf = true → n.wf = true → (∀ a, a ≤ 32767 → m.get a = n.get a) → m = n

/-- R212, R33: construction lays the image out from address 0, zero elsewhere, and every other field
is as after reset; an image longer than memory is refused (decision D18). -/
def Obligations.ConstructionLoadsImageThenZeros : Prop :=
  ∀ (cap : Option Nat) (image : List Word),
    (image.length ≤ 32768 →
      ∃ m : Memory, State.ofImage cap image = .next { State.reset with mem := m, stackCap := cap } ∧
        m.wf = true ∧ ∀ a, m.get a = image.getD a 0) ∧
    (32768 < image.length → State.ofImage cap image = .refused .imageTooLong)

/-- R43, R212: the image's bytes are its words in little-endian order, and a byte stream that ends
inside a word is refused (decision D18). -/
def Obligations.ImageBytesAreLittleEndianWords : Prop :=
  ∀ (cap : Option Nat) (image : List Word) (last : Byte),
    State.ofImageBytes cap (bytesOfWords image) = State.ofImage cap image ∧
    State.ofImageBytes cap (bytesOfWords image ++ [last]) = .refused .imageOddByteCount ∧
    ∀ k, k < image.length →
      (image.getD k 0).toNat =
        ((bytesOfWords image).getD (2 * k) 0).toNat +
          256 * ((bytesOfWords image).getD (2 * k + 1) 0).toNat

/-- R33: the reset state. The zero registers and the empty stack are the spec's own decisions D2 and
D3, a sentence of R33 says so ("The register and stack rows are the spec's own choices"; logs 3,
4). -/
def Obligations.ResetLeavesTheStatedValues : Prop :=
  (∀ a, State.reset.mem.get a = 0) ∧ (∀ r : RegIdx, State.reset.regs[r] = 0) ∧
  State.reset.stack = [] ∧ State.reset.ip = 0 ∧ State.reset.run = .idle ∧
  State.reset.cancel = false ∧ State.reset.result = none ∧ State.reset.resultTaken = false ∧
  State.reset.outClosed = false ∧ State.reset.outTrace = []

/-! ## Invariant -/

/-- The invariant holds right after reset. -/
def Obligations.InvariantHoldsAtReset : Prop := State.reset.Inv

/-- The invariant holds of every core constructed from an image. -/
def Obligations.InvariantHoldsAfterConstruction : Prop :=
  ∀ (cap : Option Nat) (image : List Word) (s : State),
    State.ofImage cap image = .next s → s.Inv

/-- Every step of every agent keeps the invariant: canonical memory, output and result as the run
status says, waits only inside `in` and `out`, the stack within `STACK_CAP`. -/
def Obligations.EveryStepKeepsTheInvariant : Prop :=
  ∀ s t : State, s.Inv → step s = .next t → t.Inv

/-! ## Whole-machine rules -/

/-- R26: the only transitions of the run status are Idle to Running, by START, and Running to a
Halted state; a Halted state is never left. -/
def Obligations.RunStatusOnlyMovesForward : Prop :=
  ∀ s t : State, step s = .next t →
    t.run = s.run ∨
    (s.run = .idle ∧ t.run = .running ∧ ∃ u, s.MovesBy .start u) ∨
    (s.run = .running ∧ t.run.halted = true)

/-- R90, R191, R214: whatever move comes, a Halted core keeps its registers, memory, stack, `ip`, run
status, result, output and count of bytes taken. -/
def Obligations.HaltedCoreIsInert : Prop :=
  ∀ s t : State, s.run.halted = true → step s = .next t →
    t.regs = s.regs ∧ t.mem = s.mem ∧ t.stack = s.stack ∧ t.ip = s.ip ∧ t.run = s.run ∧
    t.result = s.result ∧ t.outClosed = s.outClosed ∧ t.outTrace = s.outTrace ∧ t.taken = s.taken

/-- R27: no step lowers the cancel latch, and only the controller's request-halt raises it. -/
def Obligations.OnlyRequestHaltChangesTheLatch : Prop :=
  ∀ s t : State, step s = .next t →
    t.cancel = s.cancel ∨ (t.cancel = true ∧ ∃ u, s.MovesBy .requestHalt u)

/-- R28, R167: a published result stands, and a result is published exactly when the run ends. -/
def Obligations.ResultIsPublishedOnceWhenTheRunEnds : Prop :=
  ∀ s t : State, s.Inv → step s = .next t →
    (∀ r, s.result = some r → t.result = some r) ∧
    (∀ r, s.result = none → t.result = some r →
      s.run = .running ∧ t.run.halted = true ∧ t.run.result = some r ∧ t.outClosed = true)

/-- R22: there are eight registers, none hardwired, none an alias, all 16 bits stored by a write; an
instruction writes no register but its target operand, and reads none but its value operands: whatever
word a register holds that is none of them, the next state differs in that register at most. -/
def Obligations.RegistersChangeOnlyAtTheTarget : Prop :=
  (∀ (s : State) (r q : RegIdx) (v : Word), (s.setReg r v).regs[q] = if q = r then v else s.regs[q]) ∧
  (∀ (i : Instr) (s t : State) (r : RegIdx), exec i s = .next t → i.target? ≠ some (.reg r) →
    t.regs[r] = s.regs[r]) ∧
  ∀ (i : Instr) (s t : State) (q : RegIdx) (w : Word), exec i s = .next t →
    (OperandKind.value, Operand.reg q) ∉ i.shape →
    ∃ u, exec i (s.setReg q w) = .next u ∧ u = { t with regs := u.regs } ∧
      ∀ p : RegIdx, p ≠ q → u.regs[p] = t.regs[p]

/-- R53: only `wmem` changes memory, and only the word at the address its first operand is worth. -/
def Obligations.MemoryChangesOnlyAtTheWmemAddress : Prop :=
  ∀ (i : Instr) (s t : State), s.mem.wf = true → exec i s = .next t →
    ((∀ a b, i ≠ .wmem a b) → ∀ y, t.mem.get y = s.mem.get y) ∧
    (∀ a b, i = .wmem a b → ∀ y, (∀ x, s.worth a = some x → y ≠ x.toNat) →
      t.mem.get y = s.mem.get y)

/-- R24, R54: the stack changes only by one entry on top: `push` and `call` add it, `pop` and `ret`
remove it. -/
def Obligations.StackChangesOnlyAtTheTop : Prop :=
  ∀ (i : Instr) (s t : State), exec i s = .next t →
    t.stack = s.stack ∨
    (∃ v, t.stack = s.stack ++ [v] ∧ ((∃ a, i = .push a) ∨ ∃ a, i = .call a)) ∨
    (∃ v, s.stack = t.stack ++ [v] ∧ ((∃ a, i = .pop a) ∨ i = .ret))

/-- R154, R164, R165, R170: only `out` emits, one byte at most; only `in` takes, the byte on offer. -/
def Obligations.ChannelsChangeOnlyByInAndOut : Prop :=
  ∀ (i : Instr) (s t : State), exec i s = .next t →
    (t.outTrace = s.outTrace ∨ ∃ a b, i = .out a ∧ t.outTrace = s.outTrace ++ [b]) ∧
    ((t.offered = s.offered ∧ t.taken = s.taken) ∨
      ∃ a b, i = .inp a ∧ s.offered = b :: t.offered ∧ t.taken = s.taken + 1)

/-- R27, R36, R38, R167: no instruction writes the cancel latch, `result_taken`, the sink's
readiness, `STACK_CAP` or the moves still to come; run status, result and closure change together, when the run
ends, or not at all. -/
def Obligations.ControlStateChangesOnlyAtTheEndOfTheRun : Prop :=
  ∀ (i : Instr) (s t : State), exec i s = .next t →
    t.cancel = s.cancel ∧ t.resultTaken = s.resultTaken ∧ t.sinkReady = s.sinkReady ∧
    t.stackCap = s.stackCap ∧ t.schedule = s.schedule ∧ t.later = s.later ∧
    ((t.run = s.run ∧ t.result = s.result ∧ t.outClosed = s.outClosed) ∨
      (t.run.halted = true ∧ t.result = t.run.result ∧ t.outClosed = true ∧ t.ip = s.ip))

/-- R34, the closure property: 15-bit registers and stack stay 15-bit under every instruction but
`rmem` and a `call` at 32766. -/
def Obligations.FifteenBitValuesAreClosed : Prop :=
  ∀ (i : Instr) (s t : State), s.Val15 → (∀ a b, i ≠ .rmem a b) →
    (∀ a, i = .call a → s.ip.toNat ≠ 32766) → exec i s = .next t → t.Val15

/-- R64, R72: an instruction whose operands are legal for their kinds, and whose words lie in memory,
never raises InvalidValue, NotARegister or InvalidOpcode, and AddressOutOfRange only as the data
access of `rmem` or `wmem`. -/
def Obligations.LegalOperandsNeverFault : Prop :=
  ∀ (i : Instr) (s t : State) (f : FaultRecord), i.legal = true →
    s.ip.toNat + i.length ≤ 32768 → s.run = .running → exec i s = .next t →
    t.run = .haltedFaulted f →
    f.code ≠ .invalidValue ∧ f.code ≠ .notARegister ∧ f.code ≠ .invalidOpcode ∧
    (f.code = .addressOutOfRange → (∃ a b, i = .rmem a b) ∨ ∃ a b, i = .wmem a b)

/-- R154: no instruction but `in` can tell whether the cancel latch is raised. -/
def Obligations.OnlyInObservesTheCancelLatch : Prop :=
  ∀ (i : Instr) (s t : State) (c : Bool), (∀ a, i ≠ .inp a) → exec i s = .next t →
    exec i { s with cancel := c } = .next { t with cancel := c }

/-- R10, R190 (decision D13): a step that ends in a fault leaves `M`, `x`, `S`, `ip` and the output
as they were, and reports the fault once, with the address of the instruction. -/
def Obligations.FaultsArePrecise : Prop :=
  ∀ (s t : State) (f : FaultRecord), s.run = .running → step s = .next t →
    t.run = .haltedFaulted f →
    t.regs = s.regs ∧ t.mem = s.mem ∧ t.stack = s.stack ∧ t.ip = s.ip ∧
    t.outTrace = s.outTrace ∧ f.ip = s.ip ∧ t.result = some (.failure f) ∧ t.outClosed = true

/-- R29: `out_trace` is the sequence of bytes handed to the sink so far, a step adding at most the one
of an `out` it executes, behind the others; `out_closed` is set when the run status becomes a Halted
one and never cleared, and after it is set no byte is emitted. -/
def Obligations.OutputOnlyGrowsUntilItIsClosed : Prop :=
  ∀ s t : State, s.Inv → step s = .next t →
    (t.outTrace = s.outTrace ∨
      (s.run = .running ∧ s.mem.get s.ip.toNat = 19 ∧ s.sinkReady = true ∧
        ∃ x, s.worth (Operand.ofWord (s.mem.get (s.ip.toNat + 1))) = some x ∧
          t.outTrace = s.outTrace ++ [BitVec.ofNat 8 (x.toNat % 256)])) ∧
    (t.outClosed = true ↔ t.run.halted = true) ∧
    (s.outClosed = true → t.outTrace = s.outTrace ∧ t.outClosed = true)
end

