-- ==== Sys2Proof/Laws/Memory.lean ====
section
/-! SUPPORT. The laws of memory: reading after a write, the canonical form, equality of memories. -/

namespace Sys2Proof.Machine

@[simp] theorem Memory.get_nil (a : Nat) : Memory.get [] a = 0 := rfl

theorem Memory.get_cons (k : Nat) (w : Word) (rest : Memory) (a : Nat) :
    Memory.get ((k, w) :: rest) a = if k = a then w else Memory.get rest a := rfl

theorem Memory.wfFrom_cons {lo k : Nat} {w : Word} {rest : Memory} :
    Memory.wfFrom lo ((k, w) :: rest) = true ↔
      lo ≤ k ∧ k < 32768 ∧ w ≠ 0 ∧ Memory.wfFrom (k + 1) rest = true := by
  simp only [Memory.wfFrom, Bool.and_eq_true, decide_eq_true_eq, and_assoc]
  rfl

theorem Memory.wfFrom_le {m : Memory} {lo lo' : Nat} (h : lo' ≤ lo)
    (hm : Memory.wfFrom lo m = true) : Memory.wfFrom lo' m = true := by
  cases m with
  | nil => rfl
  | cons e rest =>
    obtain ⟨hk, hrest⟩ := Memory.wfFrom_cons.mp hm
    exact Memory.wfFrom_cons.mpr ⟨Nat.le_trans h hk, hrest⟩

/-- Below the lower bound nothing is listed. -/
theorem Memory.get_of_lt {m : Memory} {lo a : Nat} (hm : Memory.wfFrom lo m = true) (h : a < lo) :
    Memory.get m a = 0 := by
  induction m generalizing lo with
  | nil => rfl
  | cons e rest ih =>
    obtain ⟨hk, -, -, hrest⟩ := Memory.wfFrom_cons.mp hm
    rw [Memory.get_cons, if_neg (by omega)]
    exact ih hrest (by omega)

/-- Above the top of memory nothing is listed. -/
theorem Memory.get_above {m : Memory} {lo a : Nat} (hm : Memory.wfFrom lo m = true)
    (h : 32768 ≤ a) : Memory.get m a = 0 := by
  induction m generalizing lo with
  | nil => rfl
  | cons e rest ih =>
    obtain ⟨-, hk, -, hrest⟩ := Memory.wfFrom_cons.mp hm
    rw [Memory.get_cons, if_neg (by omega)]
    exact ih hrest

theorem Memory.entry_wf {lo a : Nat} {v : Word} {rest : Memory} (hlo : lo ≤ a) (ha : a < 32768)
    (hr : Memory.wfFrom (a + 1) rest = true) : Memory.wfFrom lo (Memory.entry a v rest) = true := by
  unfold Memory.entry
  split
  · exact Memory.wfFrom_le (by omega) hr
  · rename_i hv
    exact Memory.wfFrom_cons.mpr ⟨hlo, ha, hv, hr⟩

theorem Memory.get_entry {lo a b : Nat} {v : Word} {rest : Memory} (hlo : a < lo)
    (hr : Memory.wfFrom lo rest = true) :
    Memory.get (Memory.entry a v rest) b = if a = b then v else Memory.get rest b := by
  unfold Memory.entry
  split
  · rename_i hv
    split
    · rename_i hab
      rw [← hab, Memory.get_of_lt hr hlo, hv]
      rfl
    · rfl
  · rw [Memory.get_cons]

theorem Memory.set_wfFrom {m : Memory} {lo a : Nat} {v : Word} (hm : Memory.wfFrom lo m = true)
    (hlo : lo ≤ a) (ha : a < 32768) : Memory.wfFrom lo (Memory.set m a v) = true := by
  induction m generalizing lo with
  | nil => exact Memory.entry_wf hlo ha rfl
  | cons e rest ih =>
    obtain ⟨k, w⟩ := e
    obtain ⟨hk, hk', hw, hrest⟩ := Memory.wfFrom_cons.mp hm
    unfold Memory.set
    split
    · exact Memory.wfFrom_cons.mpr ⟨hk, hk', hw, ih hrest (by omega)⟩
    · split
      · exact Memory.entry_wf hlo ha (by subst_vars; exact hrest)
      · exact Memory.entry_wf hlo ha (Memory.wfFrom_cons.mpr ⟨by omega, hk', hw, hrest⟩)

/-- Reading after a write. -/
theorem Memory.get_set_from {m : Memory} {lo a b : Nat} {v : Word}
    (hm : Memory.wfFrom lo m = true) :
    Memory.get (Memory.set m a v) b = if a = b then v else Memory.get m b := by
  induction m generalizing lo with
  | nil =>
    unfold Memory.set
    exact Memory.get_entry (lo := a + 1) (by omega) rfl
  | cons e rest ih =>
    obtain ⟨k, w⟩ := e
    obtain ⟨hk, hk', hw, hrest⟩ := Memory.wfFrom_cons.mp hm
    unfold Memory.set
    split
    · rw [Memory.get_cons, Memory.get_cons, ih hrest]
      by_cases hkb : k = b
      · rw [if_pos hkb, if_pos hkb, if_neg (by omega)]
      · rw [if_neg hkb, if_neg hkb]
    · split
      · rename_i hka
        subst hka
        rw [Memory.get_entry (Nat.lt_succ_self k) hrest, Memory.get_cons]
        split <;> rfl
      · exact Memory.get_entry (lo := k) (by omega)
          (Memory.wfFrom_cons.mpr ⟨Nat.le_refl k, hk', hw, hrest⟩)

/-- Canonical memories that read the same everywhere are the same list. -/
theorem Memory.ext_from {m n : Memory} {lo : Nat} (hm : Memory.wfFrom lo m = true)
    (hn : Memory.wfFrom lo n = true) (h : ∀ a, Memory.get m a = Memory.get n a) : m = n := by
  induction m generalizing n lo with
  | nil =>
    cases n with
    | nil => rfl
    | cons e rest =>
      obtain ⟨-, -, hw, -⟩ := Memory.wfFrom_cons.mp hn
      have := h e.1
      rw [show e = (e.1, e.2) from rfl, Memory.get_cons, if_pos rfl] at this
      exact absurd this.symm hw
  | cons e rest ih =>
    obtain ⟨k, w⟩ := e
    obtain ⟨hk, hk', hw, hrest⟩ := Memory.wfFrom_cons.mp hm
    cases n with
    | nil =>
      have := h k
      rw [Memory.get_cons, if_pos rfl] at this
      exact absurd this hw
    | cons e' rest' =>
      obtain ⟨k', w'⟩ := e'
      obtain ⟨hj, hj', hw', hrest'⟩ := Memory.wfFrom_cons.mp hn
      have hkk : k = k' := by
        rcases Nat.lt_trichotomy k k' with hlt | heq | hgt
        · have := h k
          rw [Memory.get_cons, if_pos rfl, Memory.get_cons, if_neg (by omega),
            Memory.get_of_lt hrest' (by omega)] at this
          exact absurd this hw
        · exact heq
        · have := h k'
          rw [Memory.get_cons, if_neg (by omega), Memory.get_of_lt hrest (by omega),
            Memory.get_cons, if_pos rfl] at this
          exact absurd this.symm hw'
      subst hkk
      have hww : w = w' := by
        have := h k
        rwa [Memory.get_cons, if_pos rfl, Memory.get_cons, if_pos rfl] at this
      subst hww
      congr 1
      refine ih hrest hrest' fun a => ?_
      have := h a
      rw [Memory.get_cons, Memory.get_cons] at this
      by_cases hka : k = a
      · rw [Memory.get_of_lt hrest (by omega), Memory.get_of_lt hrest' (by omega)]
      · rwa [if_neg hka, if_neg hka] at this

theorem Memory.loadFrom_wfFrom {a : Nat} {image : List Word} (h : a + image.length ≤ 32768) :
    Memory.wfFrom a (Memory.loadFrom a image) = true := by
  induction image generalizing a with
  | nil => rfl
  | cons w rest ih =>
    rw [List.length_cons] at h
    exact Memory.entry_wf (Nat.le_refl a) (by omega) (ih (by omega))

theorem Memory.get_loadFrom {a b : Nat} {image : List Word} (h : a + image.length ≤ 32768) :
    Memory.get (Memory.loadFrom a image) b = if a ≤ b then image.getD (b - a) 0 else 0 := by
  induction image generalizing a with
  | nil => simp [Memory.loadFrom]
  | cons w rest ih =>
    rw [List.length_cons] at h
    unfold Memory.loadFrom
    rw [Memory.get_entry (Nat.lt_succ_self a) (Memory.loadFrom_wfFrom (by omega)),
      ih (by omega)]
    by_cases hab : a = b
    · subst hab; simp
    · rw [if_neg hab]
      by_cases hle : a ≤ b
      · rw [if_pos (by omega), if_pos hle, show b - a = (b - (a + 1)) + 1 by omega]
        simp
      · rw [if_neg (by omega), if_neg hle]

theorem Memory.setMany_wf {m : Memory} {a : Nat} {ws : List Word} (hm : m.wf = true)
    (h : a + ws.length ≤ 32768) : (m.setMany a ws).wf = true := by
  induction ws generalizing m a with
  | nil => exact hm
  | cons w rest ih =>
    rw [List.length_cons] at h
    exact ih (Memory.set_wfFrom hm (Nat.zero_le a) (by omega)) (by omega)

end Sys2Proof.Machine
end

