-- ==== Sys2Proof/Laws/State.lean ====
section
/-! SUPPORT. One lemma for each field of State after each update, true by `rfl`: no later proof
unfolds a record update. -/

namespace Sys2Proof.Machine

variable (s : State)

@[simp] theorem setReg_regs (r : RegIdx) (v : Word) : (s.setReg r v).regs = s.regs.set r v := rfl
@[simp] theorem setReg_ip (r : RegIdx) (v : Word) : (s.setReg r v).ip = s.ip := rfl
@[simp] theorem setReg_stack (r : RegIdx) (v : Word) : (s.setReg r v).stack = s.stack := rfl
@[simp] theorem setReg_mem (r : RegIdx) (v : Word) : (s.setReg r v).mem = s.mem := rfl
@[simp] theorem setReg_run (r : RegIdx) (v : Word) : (s.setReg r v).run = s.run := rfl
@[simp] theorem setReg_cancel (r : RegIdx) (v : Word) : (s.setReg r v).cancel = s.cancel := rfl
@[simp] theorem setReg_result (r : RegIdx) (v : Word) : (s.setReg r v).result = s.result := rfl
@[simp] theorem setReg_resultTaken (r : RegIdx) (v : Word) : (s.setReg r v).resultTaken = s.resultTaken := rfl
@[simp] theorem setReg_outClosed (r : RegIdx) (v : Word) : (s.setReg r v).outClosed = s.outClosed := rfl
@[simp] theorem setReg_outTrace (r : RegIdx) (v : Word) : (s.setReg r v).outTrace = s.outTrace := rfl
@[simp] theorem setReg_phase (r : RegIdx) (v : Word) : (s.setReg r v).phase = s.phase := rfl
@[simp] theorem setReg_stackCap (r : RegIdx) (v : Word) : (s.setReg r v).stackCap = s.stackCap := rfl
@[simp] theorem setReg_offered (r : RegIdx) (v : Word) : (s.setReg r v).offered = s.offered := rfl
@[simp] theorem setReg_taken (r : RegIdx) (v : Word) : (s.setReg r v).taken = s.taken := rfl
@[simp] theorem setReg_sinkReady (r : RegIdx) (v : Word) : (s.setReg r v).sinkReady = s.sinkReady := rfl
@[simp] theorem setReg_schedule (r : RegIdx) (v : Word) : (s.setReg r v).schedule = s.schedule := rfl
@[simp] theorem setReg_later (r : RegIdx) (v : Word) : (s.setReg r v).later = s.later := rfl
@[simp] theorem setReg_ties (r : RegIdx) (v : Word) : (s.setReg r v).ties = s.ties := rfl

@[simp] theorem pushWord_regs (v : Word) : (s.pushWord v).regs = s.regs := rfl
@[simp] theorem pushWord_ip (v : Word) : (s.pushWord v).ip = s.ip := rfl
@[simp] theorem pushWord_stack (v : Word) : (s.pushWord v).stack = s.stack ++ [v] := rfl
@[simp] theorem pushWord_mem (v : Word) : (s.pushWord v).mem = s.mem := rfl
@[simp] theorem pushWord_run (v : Word) : (s.pushWord v).run = s.run := rfl
@[simp] theorem pushWord_cancel (v : Word) : (s.pushWord v).cancel = s.cancel := rfl
@[simp] theorem pushWord_result (v : Word) : (s.pushWord v).result = s.result := rfl
@[simp] theorem pushWord_resultTaken (v : Word) : (s.pushWord v).resultTaken = s.resultTaken := rfl
@[simp] theorem pushWord_outClosed (v : Word) : (s.pushWord v).outClosed = s.outClosed := rfl
@[simp] theorem pushWord_outTrace (v : Word) : (s.pushWord v).outTrace = s.outTrace := rfl
@[simp] theorem pushWord_phase (v : Word) : (s.pushWord v).phase = s.phase := rfl
@[simp] theorem pushWord_stackCap (v : Word) : (s.pushWord v).stackCap = s.stackCap := rfl
@[simp] theorem pushWord_offered (v : Word) : (s.pushWord v).offered = s.offered := rfl
@[simp] theorem pushWord_taken (v : Word) : (s.pushWord v).taken = s.taken := rfl
@[simp] theorem pushWord_sinkReady (v : Word) : (s.pushWord v).sinkReady = s.sinkReady := rfl
@[simp] theorem pushWord_schedule (v : Word) : (s.pushWord v).schedule = s.schedule := rfl
@[simp] theorem pushWord_later (v : Word) : (s.pushWord v).later = s.later := rfl
@[simp] theorem pushWord_ties (v : Word) : (s.pushWord v).ties = s.ties := rfl

@[simp] theorem dropWord_regs : (s.dropWord).regs = s.regs := rfl
@[simp] theorem dropWord_ip : (s.dropWord).ip = s.ip := rfl
@[simp] theorem dropWord_stack : (s.dropWord).stack = s.stack.dropLast := rfl
@[simp] theorem dropWord_mem : (s.dropWord).mem = s.mem := rfl
@[simp] theorem dropWord_run : (s.dropWord).run = s.run := rfl
@[simp] theorem dropWord_cancel : (s.dropWord).cancel = s.cancel := rfl
@[simp] theorem dropWord_result : (s.dropWord).result = s.result := rfl
@[simp] theorem dropWord_resultTaken : (s.dropWord).resultTaken = s.resultTaken := rfl
@[simp] theorem dropWord_outClosed : (s.dropWord).outClosed = s.outClosed := rfl
@[simp] theorem dropWord_outTrace : (s.dropWord).outTrace = s.outTrace := rfl
@[simp] theorem dropWord_phase : (s.dropWord).phase = s.phase := rfl
@[simp] theorem dropWord_stackCap : (s.dropWord).stackCap = s.stackCap := rfl
@[simp] theorem dropWord_offered : (s.dropWord).offered = s.offered := rfl
@[simp] theorem dropWord_taken : (s.dropWord).taken = s.taken := rfl
@[simp] theorem dropWord_sinkReady : (s.dropWord).sinkReady = s.sinkReady := rfl
@[simp] theorem dropWord_schedule : (s.dropWord).schedule = s.schedule := rfl
@[simp] theorem dropWord_later : (s.dropWord).later = s.later := rfl
@[simp] theorem dropWord_ties : (s.dropWord).ties = s.ties := rfl

@[simp] theorem retire_regs (n : Word) : (s.retire n).regs = s.regs := rfl
@[simp] theorem retire_ip (n : Word) : (s.retire n).ip = n := rfl
@[simp] theorem retire_stack (n : Word) : (s.retire n).stack = s.stack := rfl
@[simp] theorem retire_mem (n : Word) : (s.retire n).mem = s.mem := rfl
@[simp] theorem retire_run (n : Word) : (s.retire n).run = s.run := rfl
@[simp] theorem retire_cancel (n : Word) : (s.retire n).cancel = s.cancel := rfl
@[simp] theorem retire_result (n : Word) : (s.retire n).result = s.result := rfl
@[simp] theorem retire_resultTaken (n : Word) : (s.retire n).resultTaken = s.resultTaken := rfl
@[simp] theorem retire_outClosed (n : Word) : (s.retire n).outClosed = s.outClosed := rfl
@[simp] theorem retire_outTrace (n : Word) : (s.retire n).outTrace = s.outTrace := rfl
@[simp] theorem retire_phase (n : Word) : (s.retire n).phase = .top := rfl
@[simp] theorem retire_stackCap (n : Word) : (s.retire n).stackCap = s.stackCap := rfl
@[simp] theorem retire_offered (n : Word) : (s.retire n).offered = s.offered := rfl
@[simp] theorem retire_taken (n : Word) : (s.retire n).taken = s.taken := rfl
@[simp] theorem retire_sinkReady (n : Word) : (s.retire n).sinkReady = s.sinkReady := rfl
@[simp] theorem retire_schedule (n : Word) : (s.retire n).schedule = s.schedule := rfl
@[simp] theorem retire_later (n : Word) : (s.retire n).later = s.later := rfl
@[simp] theorem retire_ties (n : Word) : (s.retire n).ties = s.ties := rfl

@[simp] theorem wait_regs (p : Phase) : (s.wait p).regs = s.regs := rfl
@[simp] theorem wait_ip (p : Phase) : (s.wait p).ip = s.ip := rfl
@[simp] theorem wait_stack (p : Phase) : (s.wait p).stack = s.stack := rfl
@[simp] theorem wait_mem (p : Phase) : (s.wait p).mem = s.mem := rfl
@[simp] theorem wait_run (p : Phase) : (s.wait p).run = s.run := rfl
@[simp] theorem wait_cancel (p : Phase) : (s.wait p).cancel = s.cancel := rfl
@[simp] theorem wait_result (p : Phase) : (s.wait p).result = s.result := rfl
@[simp] theorem wait_resultTaken (p : Phase) : (s.wait p).resultTaken = s.resultTaken := rfl
@[simp] theorem wait_outClosed (p : Phase) : (s.wait p).outClosed = s.outClosed := rfl
@[simp] theorem wait_outTrace (p : Phase) : (s.wait p).outTrace = s.outTrace := rfl
@[simp] theorem wait_phase (p : Phase) : (s.wait p).phase = p := rfl
@[simp] theorem wait_stackCap (p : Phase) : (s.wait p).stackCap = s.stackCap := rfl
@[simp] theorem wait_offered (p : Phase) : (s.wait p).offered = s.offered := rfl
@[simp] theorem wait_taken (p : Phase) : (s.wait p).taken = s.taken := rfl
@[simp] theorem wait_sinkReady (p : Phase) : (s.wait p).sinkReady = s.sinkReady := rfl
@[simp] theorem wait_schedule (p : Phase) : (s.wait p).schedule = s.schedule := rfl
@[simp] theorem wait_later (p : Phase) : (s.wait p).later = s.later := rfl
@[simp] theorem wait_ties (p : Phase) : (s.wait p).ties = s.ties := rfl

@[simp] theorem finish_regs (st : RunStatus) (r : Result) : (s.finish st r).regs = s.regs := rfl
@[simp] theorem finish_ip (st : RunStatus) (r : Result) : (s.finish st r).ip = s.ip := rfl
@[simp] theorem finish_stack (st : RunStatus) (r : Result) : (s.finish st r).stack = s.stack := rfl
@[simp] theorem finish_mem (st : RunStatus) (r : Result) : (s.finish st r).mem = s.mem := rfl
@[simp] theorem finish_run (st : RunStatus) (r : Result) : (s.finish st r).run = st := rfl
@[simp] theorem finish_cancel (st : RunStatus) (r : Result) : (s.finish st r).cancel = s.cancel := rfl
@[simp] theorem finish_result (st : RunStatus) (r : Result) : (s.finish st r).result = some r := rfl
@[simp] theorem finish_resultTaken (st : RunStatus) (r : Result) : (s.finish st r).resultTaken = s.resultTaken := rfl
@[simp] theorem finish_outClosed (st : RunStatus) (r : Result) : (s.finish st r).outClosed = true := rfl
@[simp] theorem finish_outTrace (st : RunStatus) (r : Result) : (s.finish st r).outTrace = s.outTrace := rfl
@[simp] theorem finish_phase (st : RunStatus) (r : Result) : (s.finish st r).phase = .top := rfl
@[simp] theorem finish_stackCap (st : RunStatus) (r : Result) : (s.finish st r).stackCap = s.stackCap := rfl
@[simp] theorem finish_offered (st : RunStatus) (r : Result) : (s.finish st r).offered = s.offered := rfl
@[simp] theorem finish_taken (st : RunStatus) (r : Result) : (s.finish st r).taken = s.taken := rfl
@[simp] theorem finish_sinkReady (st : RunStatus) (r : Result) : (s.finish st r).sinkReady = s.sinkReady := rfl
@[simp] theorem finish_schedule (st : RunStatus) (r : Result) : (s.finish st r).schedule = s.schedule := rfl
@[simp] theorem finish_later (st : RunStatus) (r : Result) : (s.finish st r).later = s.later := rfl
@[simp] theorem finish_ties (st : RunStatus) (r : Result) : (s.finish st r).ties = s.ties := rfl

@[simp] theorem emit_regs (b : Byte) : (s.emit b).regs = s.regs := rfl
@[simp] theorem emit_ip (b : Byte) : (s.emit b).ip = s.ip := rfl
@[simp] theorem emit_stack (b : Byte) : (s.emit b).stack = s.stack := rfl
@[simp] theorem emit_mem (b : Byte) : (s.emit b).mem = s.mem := rfl
@[simp] theorem emit_run (b : Byte) : (s.emit b).run = s.run := rfl
@[simp] theorem emit_cancel (b : Byte) : (s.emit b).cancel = s.cancel := rfl
@[simp] theorem emit_result (b : Byte) : (s.emit b).result = s.result := rfl
@[simp] theorem emit_resultTaken (b : Byte) : (s.emit b).resultTaken = s.resultTaken := rfl
@[simp] theorem emit_outClosed (b : Byte) : (s.emit b).outClosed = s.outClosed := rfl
@[simp] theorem emit_outTrace (b : Byte) : (s.emit b).outTrace = s.outTrace ++ [b] := rfl
@[simp] theorem emit_phase (b : Byte) : (s.emit b).phase = s.phase := rfl
@[simp] theorem emit_stackCap (b : Byte) : (s.emit b).stackCap = s.stackCap := rfl
@[simp] theorem emit_offered (b : Byte) : (s.emit b).offered = s.offered := rfl
@[simp] theorem emit_taken (b : Byte) : (s.emit b).taken = s.taken := rfl
@[simp] theorem emit_sinkReady (b : Byte) : (s.emit b).sinkReady = s.sinkReady := rfl
@[simp] theorem emit_schedule (b : Byte) : (s.emit b).schedule = s.schedule := rfl
@[simp] theorem emit_later (b : Byte) : (s.emit b).later = s.later := rfl
@[simp] theorem emit_ties (b : Byte) : (s.emit b).ties = s.ties := rfl

@[simp] theorem takeByte_regs (rest : List Byte) : (s.takeByte rest).regs = s.regs := rfl
@[simp] theorem takeByte_ip (rest : List Byte) : (s.takeByte rest).ip = s.ip := rfl
@[simp] theorem takeByte_stack (rest : List Byte) : (s.takeByte rest).stack = s.stack := rfl
@[simp] theorem takeByte_mem (rest : List Byte) : (s.takeByte rest).mem = s.mem := rfl
@[simp] theorem takeByte_run (rest : List Byte) : (s.takeByte rest).run = s.run := rfl
@[simp] theorem takeByte_cancel (rest : List Byte) : (s.takeByte rest).cancel = s.cancel := rfl
@[simp] theorem takeByte_result (rest : List Byte) : (s.takeByte rest).result = s.result := rfl
@[simp] theorem takeByte_resultTaken (rest : List Byte) : (s.takeByte rest).resultTaken = s.resultTaken := rfl
@[simp] theorem takeByte_outClosed (rest : List Byte) : (s.takeByte rest).outClosed = s.outClosed := rfl
@[simp] theorem takeByte_outTrace (rest : List Byte) : (s.takeByte rest).outTrace = s.outTrace := rfl
@[simp] theorem takeByte_phase (rest : List Byte) : (s.takeByte rest).phase = s.phase := rfl
@[simp] theorem takeByte_stackCap (rest : List Byte) : (s.takeByte rest).stackCap = s.stackCap := rfl
@[simp] theorem takeByte_offered (rest : List Byte) : (s.takeByte rest).offered = rest := rfl
@[simp] theorem takeByte_taken (rest : List Byte) : (s.takeByte rest).taken = s.taken + 1 := rfl
@[simp] theorem takeByte_sinkReady (rest : List Byte) : (s.takeByte rest).sinkReady = s.sinkReady := rfl
@[simp] theorem takeByte_schedule (rest : List Byte) : (s.takeByte rest).schedule = s.schedule := rfl
@[simp] theorem takeByte_later (rest : List Byte) : (s.takeByte rest).later = s.later := rfl
@[simp] theorem takeByte_ties (rest : List Byte) : (s.takeByte rest).ties = s.ties := rfl

@[simp] theorem countTie_regs : (s.countTie).regs = s.regs := rfl
@[simp] theorem countTie_ip : (s.countTie).ip = s.ip := rfl
@[simp] theorem countTie_stack : (s.countTie).stack = s.stack := rfl
@[simp] theorem countTie_mem : (s.countTie).mem = s.mem := rfl
@[simp] theorem countTie_run : (s.countTie).run = s.run := rfl
@[simp] theorem countTie_cancel : (s.countTie).cancel = s.cancel := rfl
@[simp] theorem countTie_result : (s.countTie).result = s.result := rfl
@[simp] theorem countTie_resultTaken : (s.countTie).resultTaken = s.resultTaken := rfl
@[simp] theorem countTie_outClosed : (s.countTie).outClosed = s.outClosed := rfl
@[simp] theorem countTie_outTrace : (s.countTie).outTrace = s.outTrace := rfl
@[simp] theorem countTie_phase : (s.countTie).phase = s.phase := rfl
@[simp] theorem countTie_stackCap : (s.countTie).stackCap = s.stackCap := rfl
@[simp] theorem countTie_offered : (s.countTie).offered = s.offered := rfl
@[simp] theorem countTie_taken : (s.countTie).taken = s.taken := rfl
@[simp] theorem countTie_sinkReady : (s.countTie).sinkReady = s.sinkReady := rfl
@[simp] theorem countTie_schedule : (s.countTie).schedule = s.schedule := rfl
@[simp] theorem countTie_later : (s.countTie).later = s.later := rfl
@[simp] theorem countTie_ties : (s.countTie).ties = s.ties + 1 := rfl

@[simp] theorem requestHalt_regs : (s.requestHalt).regs = s.regs := rfl
@[simp] theorem requestHalt_ip : (s.requestHalt).ip = s.ip := rfl
@[simp] theorem requestHalt_stack : (s.requestHalt).stack = s.stack := rfl
@[simp] theorem requestHalt_mem : (s.requestHalt).mem = s.mem := rfl
@[simp] theorem requestHalt_run : (s.requestHalt).run = s.run := rfl
@[simp] theorem requestHalt_cancel : (s.requestHalt).cancel = true := rfl
@[simp] theorem requestHalt_result : (s.requestHalt).result = s.result := rfl
@[simp] theorem requestHalt_resultTaken : (s.requestHalt).resultTaken = s.resultTaken := rfl
@[simp] theorem requestHalt_outClosed : (s.requestHalt).outClosed = s.outClosed := rfl
@[simp] theorem requestHalt_outTrace : (s.requestHalt).outTrace = s.outTrace := rfl
@[simp] theorem requestHalt_phase : (s.requestHalt).phase = s.phase := rfl
@[simp] theorem requestHalt_stackCap : (s.requestHalt).stackCap = s.stackCap := rfl
@[simp] theorem requestHalt_offered : (s.requestHalt).offered = s.offered := rfl
@[simp] theorem requestHalt_taken : (s.requestHalt).taken = s.taken := rfl
@[simp] theorem requestHalt_sinkReady : (s.requestHalt).sinkReady = s.sinkReady := rfl
@[simp] theorem requestHalt_schedule : (s.requestHalt).schedule = s.schedule := rfl
@[simp] theorem requestHalt_later : (s.requestHalt).later = s.later := rfl
@[simp] theorem requestHalt_ties : (s.requestHalt).ties = s.ties := rfl

@[simp] theorem offer_regs (b : Byte) : (s.offer b).regs = s.regs := rfl
@[simp] theorem offer_ip (b : Byte) : (s.offer b).ip = s.ip := rfl
@[simp] theorem offer_stack (b : Byte) : (s.offer b).stack = s.stack := rfl
@[simp] theorem offer_mem (b : Byte) : (s.offer b).mem = s.mem := rfl
@[simp] theorem offer_run (b : Byte) : (s.offer b).run = s.run := rfl
@[simp] theorem offer_cancel (b : Byte) : (s.offer b).cancel = s.cancel := rfl
@[simp] theorem offer_result (b : Byte) : (s.offer b).result = s.result := rfl
@[simp] theorem offer_resultTaken (b : Byte) : (s.offer b).resultTaken = s.resultTaken := rfl
@[simp] theorem offer_outClosed (b : Byte) : (s.offer b).outClosed = s.outClosed := rfl
@[simp] theorem offer_outTrace (b : Byte) : (s.offer b).outTrace = s.outTrace := rfl
@[simp] theorem offer_phase (b : Byte) : (s.offer b).phase = s.phase := rfl
@[simp] theorem offer_stackCap (b : Byte) : (s.offer b).stackCap = s.stackCap := rfl
@[simp] theorem offer_offered (b : Byte) : (s.offer b).offered = s.offered ++ [b] := rfl
@[simp] theorem offer_taken (b : Byte) : (s.offer b).taken = s.taken := rfl
@[simp] theorem offer_sinkReady (b : Byte) : (s.offer b).sinkReady = s.sinkReady := rfl
@[simp] theorem offer_schedule (b : Byte) : (s.offer b).schedule = s.schedule := rfl
@[simp] theorem offer_later (b : Byte) : (s.offer b).later = s.later := rfl
@[simp] theorem offer_ties (b : Byte) : (s.offer b).ties = s.ties := rfl

@[simp] theorem setSink_regs (b : Bool) : (s.setSink b).regs = s.regs := rfl
@[simp] theorem setSink_ip (b : Bool) : (s.setSink b).ip = s.ip := rfl
@[simp] theorem setSink_stack (b : Bool) : (s.setSink b).stack = s.stack := rfl
@[simp] theorem setSink_mem (b : Bool) : (s.setSink b).mem = s.mem := rfl
@[simp] theorem setSink_run (b : Bool) : (s.setSink b).run = s.run := rfl
@[simp] theorem setSink_cancel (b : Bool) : (s.setSink b).cancel = s.cancel := rfl
@[simp] theorem setSink_result (b : Bool) : (s.setSink b).result = s.result := rfl
@[simp] theorem setSink_resultTaken (b : Bool) : (s.setSink b).resultTaken = s.resultTaken := rfl
@[simp] theorem setSink_outClosed (b : Bool) : (s.setSink b).outClosed = s.outClosed := rfl
@[simp] theorem setSink_outTrace (b : Bool) : (s.setSink b).outTrace = s.outTrace := rfl
@[simp] theorem setSink_phase (b : Bool) : (s.setSink b).phase = s.phase := rfl
@[simp] theorem setSink_stackCap (b : Bool) : (s.setSink b).stackCap = s.stackCap := rfl
@[simp] theorem setSink_offered (b : Bool) : (s.setSink b).offered = s.offered := rfl
@[simp] theorem setSink_taken (b : Bool) : (s.setSink b).taken = s.taken := rfl
@[simp] theorem setSink_sinkReady (b : Bool) : (s.setSink b).sinkReady =
    if s.sinkReady = true ∧ s.phase = .waitOut then true else b := rfl
@[simp] theorem setSink_schedule (b : Bool) : (s.setSink b).schedule = s.schedule := rfl
@[simp] theorem setSink_later (b : Bool) : (s.setSink b).later = s.later := rfl
@[simp] theorem setSink_ties (b : Bool) : (s.setSink b).ties = s.ties := rfl

@[simp] theorem advance_eq (n : Nat) : s.advance n = s.retire (s.ip + BitVec.ofNat 16 n) := rfl
@[simp] theorem haltNormal_eq : s.haltNormal = s.finish .haltedNormal .success := rfl
@[simp] theorem haltCancelled_eq : s.haltCancelled = s.finish .haltedCancelled .cancelled := rfl

end Sys2Proof.Machine
end

