-- ==== Sys2Proof/Laws/Operands.lean ====
section
/-! SUPPORT. Everything the operand resolver can do, in the claims' vocabulary: each of `withVal` and
`withTgt` either goes on or takes the one fault the spec names. -/

namespace Sys2Proof.Machine

variable {s : State}

/-- Taking a fault leaves the state R190 describes. -/
theorem raise_eq_faulted (f : FaultInfo) :
    s.raise f = s.faulted (s.record f.code f.addr f.value) := rfl

theorem fetchCheck_eq (p : Nat) :
    s.fetchCheck p =
      if s.ip.toNat + p ≤ 32767 then .ok () else .error (outOfRange (s.ip.toNat + p)) := by
  simp only [State.fetchCheck, Config.memWords, Nat.lt_succ_iff]

theorem fetchFault_eq_none {p : Nat} : s.fetchFault p = none ↔ s.ip.toNat + p ≤ 32767 := by
  simp [State.fetchFault]

theorem ip_add_ofNat (p : Nat) : s.ip + BitVec.ofNat 16 p = BitVec.ofNat 16 (s.ip.toNat + p) := by
  apply BitVec.eq_of_toNat_eq
  simp

/-- An operand in range that is worth a value is that value. -/
theorem val_of_worth {p : Nat} {o : Operand} {v : Word} (hp : s.ip.toNat + p ≤ 32767)
    (ho : s.worth o = some v) : s.val p o = .ok v := by
  unfold State.val
  rw [fetchCheck_eq, if_pos hp]
  cases o with
  | lit w =>
    obtain rfl : BitVec.ofNat 16 w.toNat = v := Option.some.inj ho
    exact congrArg Except.ok (BitVec.eq_of_toNat_eq (by simp))
  | reg r => exact congrArg Except.ok (Option.some.inj ho)
  | invalid w => exact absurd ho (by simp [State.worth])

theorem withVal_of_worth {p : Nat} {o : Operand} {v : Word} (hp : s.ip.toNat + p ≤ 32767)
    (ho : s.worth o = some v) (k : Word → State) : s.withVal p o k = k v := by
  unfold State.withVal
  rw [val_of_worth hp ho]

theorem withVal_of_fault {p : Nat} {o : Operand} {f : FaultRecord} (h : s.valueFault p o = some f)
    (k : Word → State) : s.withVal p o k = s.faulted f := by
  unfold State.withVal State.val
  rw [fetchCheck_eq]
  unfold State.valueFault State.fetchFault at h
  by_cases hp : s.ip.toNat + p ≤ 32767
  · rw [if_neg (by omega)] at h
    cases o with
    | lit w => exact absurd h (by simp)
    | reg r => exact absurd h (by simp)
    | invalid w =>
      obtain rfl := Option.some.inj h
      rw [if_pos hp]
      simp only [raise_eq_faulted, ip_add_ofNat]
  · rw [if_pos (by omega)] at h
    obtain rfl := Option.some.inj h
    rw [if_neg hp]
    rfl

theorem valueFault_eq_none {p : Nat} {o : Operand} :
    s.valueFault p o = none ↔ s.ip.toNat + p ≤ 32767 ∧ ∃ v, s.worth o = some v := by
  unfold State.valueFault
  rw [Option.or_eq_none_iff, fetchFault_eq_none]
  cases o <;> simp [State.worth]

/-- `withVal` goes on with the operand's value, or takes the fault `valueFault` names. -/
theorem withVal_cases (p : Nat) (o : Operand) (k : Word → State) :
    (∃ v, s.ip.toNat + p ≤ 32767 ∧ s.worth o = some v ∧ s.withVal p o k = k v) ∨
      ∃ f, s.valueFault p o = some f ∧ s.withVal p o k = s.faulted f := by
  cases h : s.valueFault p o with
  | none =>
    obtain ⟨hp, v, hv⟩ := valueFault_eq_none.mp h
    exact .inl ⟨v, hp, hv, withVal_of_worth hp hv k⟩
  | some f => exact .inr ⟨f, rfl, withVal_of_fault h k⟩

theorem withTgt_reg {r : RegIdx} (hp : s.ip.toNat + 1 ≤ 32767) (v : Word) (k : State → State) :
    s.withTgt (.reg r) v k = k (s.setReg r v) := by
  unfold State.withTgt State.tgt
  rw [fetchCheck_eq, if_pos hp]

theorem withTgt_of_fault {o : Operand} {f : FaultRecord} (h : s.targetFault o = some f) (v : Word)
    (k : State → State) : s.withTgt o v k = s.faulted f := by
  unfold State.withTgt State.tgt
  rw [fetchCheck_eq]
  unfold State.targetFault State.fetchFault at h
  by_cases hp : s.ip.toNat + 1 ≤ 32767
  · rw [if_neg (by omega)] at h
    rw [if_pos hp]
    cases o with
    | reg r => exact absurd h (by simp)
    | lit w =>
      obtain rfl := Option.some.inj h
      simp only [raise_eq_faulted, ← ip_add_ofNat]
      rfl
    | invalid w =>
      obtain rfl := Option.some.inj h
      simp only [raise_eq_faulted, ← ip_add_ofNat]
      rfl
  · rw [if_pos (by omega)] at h
    obtain rfl := Option.some.inj h
    rw [if_neg hp]
    rfl

theorem targetFault_eq_none {o : Operand} :
    s.targetFault o = none ↔ s.ip.toNat + 1 ≤ 32767 ∧ ∃ r, o = .reg r := by
  unfold State.targetFault
  rw [Option.or_eq_none_iff, fetchFault_eq_none]
  cases o <;> simp

/-- `withTgt` goes on with the register written, or takes the fault `targetFault` names. -/
theorem withTgt_cases (o : Operand) (v : Word) (k : State → State) :
    (∃ r, s.ip.toNat + 1 ≤ 32767 ∧ o = .reg r ∧ s.withTgt o v k = k (s.setReg r v)) ∨
      ∃ f, s.targetFault o = some f ∧ s.withTgt o v k = s.faulted f := by
  cases h : s.targetFault o with
  | none =>
    obtain ⟨hp, r, rfl⟩ := targetFault_eq_none.mp h
    exact .inl ⟨r, hp, rfl, withTgt_reg hp v k⟩
  | some f => exact .inr ⟨f, rfl, withTgt_of_fault h v k⟩

/-- A change `u` of the state that the resolver does not see, and that a fault carries along as `u'`,
passes through `withVal`. -/
theorem withVal_map {u u' : State → State} {p : Nat} {o : Operand} (k k' : Word → State)
    (hv : (u s).val p o = s.val p o) (hr : ∀ f, (u s).raise f = u' (s.raise f))
    (hk : ∀ v, k' v = u' (k v)) : (u s).withVal p o k' = u' (s.withVal p o k) := by
  unfold State.withVal
  rw [hv]
  cases s.val p o with
  | ok v => exact hk v
  | error f => exact hr f

/-- The same for `withTgt`, where the state written to is changed alike. -/
theorem withTgt_map {u u' : State → State} {o : Operand} {w : Word} (k k' : State → State)
    (hip : (u s).ip = s.ip) (hw : ∀ r, (u s).setReg r w = u (s.setReg r w))
    (hr : ∀ f, (u s).raise f = u' (s.raise f)) (hk : ∀ t, k' (u t) = u' (k t)) :
    (u s).withTgt o w k' = u' (s.withTgt o w k) := by
  unfold State.withTgt State.tgt
  rw [fetchCheck_eq, fetchCheck_eq, hip]
  by_cases hp : s.ip.toNat + 1 ≤ 32767
  · rw [if_pos hp]
    cases o with
    | reg r => exact (congrArg k' (hw r)).trans (hk _)
    | lit v => exact hr _
    | invalid v => exact hr _
  · rw [if_neg hp]
    exact hr _

@[simp] theorem reg_setReg_self (r : RegIdx) (v : Word) : (s.setReg r v).reg r = v := by
  simp [State.reg, State.setReg]

theorem reg_setReg_other {r q : RegIdx} (h : q ≠ r) (v : Word) :
    (s.setReg r v).reg q = s.reg q := by
  have hne : r.val ≠ q.val := fun e => h (Fin.ext e.symm)
  simp [State.reg, State.setReg, hne]

end Sys2Proof.Machine
end

