-- ==== Sys2Proof/Laws/Exec.lean ====
section
/-! SUPPORT. Said once: everything one instruction can do (`Effect`, `exec_effect`). Frames,
invariants and whole-machine rules are read off it by cases, without unfolding a meaning. -/

namespace Sys2Proof.Machine

/-- Every next state an instruction can give. -/
inductive Effect (i : Instr) (s : State) : State → Prop
  /-- a fault, before anything is written -/
  | fault (f : FaultRecord) (hf : f.ip = s.ip) : Effect i s (s.faulted f)
  /-- `halt`, or `ret` on an empty stack -/
  | halted (h : i = .halt ∨ (i = .ret ∧ s.stack = [])) : Effect i s s.endedNormally
  /-- only `ip` moves: `nop` and the jumps -/
  | moved (n : Word)
      (h : i = .nop ∨ (∃ a, i = .jmp a) ∨ (∃ a b, i = .jt a b) ∨ ∃ a b, i = .jf a b) :
      Effect i s (s.retire n)
  /-- a target register is written, the stack and the channels untouched -/
  | wrote (r : RegIdx) (v n : Word) (h : i.target? = some (.reg r))
      (hv : (∃ a b, i = .rmem a b) ∨ (s.Val15 → v.toNat ≤ 32767)) :
      Effect i s ((s.setReg r v).retire n)
  /-- `pop` -/
  | popped (r : RegIdx) (v n : Word) (rest : List Word) (h : i = .pop (.reg r))
      (hs : s.stack = rest ++ [v]) : Effect i s (({ s.setReg r v with stack := rest } : State).retire n)
  /-- `push` and `call` -/
  | pushed (v n : Word) (h : (∃ a, i = .push a ∧ s.worth a = some v) ∨
        ((∃ a, i = .call a) ∧ v = s.ip + 2 ∧ s.ip.toNat + 1 ≤ 32767))
      (hs : s.stackFull = false) : Effect i s ((s.pushWord v).retire n)
  /-- `ret` -/
  | returned (v : Word) (rest : List Word) (h : i = .ret) (hs : s.stack = rest ++ [v]) :
      Effect i s (({ s with stack := rest } : State).retire v)
  /-- `wmem` -/
  | stored (a b : Operand) (addr w n : Word) (h : i = .wmem a b) (ha : s.worth a = some addr)
      (hb : s.worth b = some w) (hr : addr.toNat ≤ 32767) :
      Effect i s (({ s with mem := s.mem.set addr.toNat w } : State).retire n)
  /-- `out`, accepted -/
  | emitted (a : Operand) (v n : Word) (h : i = .out a) (ha : s.worth a = some v)
      (hs : s.sinkReady = true) : Effect i s ((s.emit (v.setWidth 8)).retire n)
  /-- `out`, waiting -/
  | waitsOut (a : Operand) (v : Word) (h : i = .out a) (hp : s.ip.toNat + 1 ≤ 32767)
      (ha : s.worth a = some v) (hs : s.sinkReady = false) : Effect i s (s.wait .waitOut)
  /-- `in`, waiting -/
  | waitsIn (a : Operand) (h : i = .inp a) (ho : s.offered = []) (hc : s.cancel = false) :
      Effect i s (s.wait .waitIn)
  /-- `in`, ended by the latch -/
  | cancelled (a : Operand) (k : Nat) (h : i = .inp a) (hc : s.cancel = true) :
      Effect i s ({ s with ties := k } : State).endedCancelled
  /-- `in`, a byte taken and written -/
  | received (r : RegIdx) (b : Byte) (rest : List Byte) (k : Nat) (n : Word) (h : i = .inp (.reg r))
      (ho : s.offered = b :: rest) :
      Effect i s (((({ s with ties := k } : State).takeByte rest).setReg r (b.setWidth 16)).retire n)
  /-- `in`, a byte taken and lost to a target fault -/
  | receivedFault (a : Operand) (b : Byte) (rest : List Byte) (k : Nat) (f : FaultRecord)
      (h : i = .inp a) (ho : s.offered = b :: rest) (hf : f.ip = s.ip) :
      Effect i s ((({ s with ties := k } : State).takeByte rest).faulted f)

theorem valueFault_ip {s : State} {p : Nat} {o : Operand} {f : FaultRecord}
    (h : s.valueFault p o = some f) : f.ip = s.ip := by
  unfold State.valueFault State.fetchFault at h
  split at h
  · exact (Option.some.inj h) ▸ rfl
  · cases o with
    | invalid w => exact (Option.some.inj h) ▸ rfl
    | lit v => exact absurd h (by simp)
    | reg r => exact absurd h (by simp)

theorem targetFault_ip {s : State} {o : Operand} {f : FaultRecord}
    (h : s.targetFault o = some f) : f.ip = s.ip := by
  unfold State.targetFault State.fetchFault at h
  split at h
  · exact (Option.some.inj h) ▸ rfl
  · cases o with
    | reg r => exact absurd h (by simp)
    | lit v => exact (Option.some.inj h) ▸ rfl
    | invalid w => exact (Option.some.inj h) ▸ rfl

/-- In a state of 15-bit registers an operand is worth a 15-bit value. -/
theorem worth_le {s : State} {o : Operand} {v : Word} (hs : s.Val15) (h : s.worth o = some v) :
    v.toNat ≤ 32767 := by
  cases o with
  | lit w =>
    obtain rfl := Option.some.inj h
    have := w.isLt
    simp only [BitVec.toNat_ofNat]
    omega
  | reg r => exact (Option.some.inj h) ▸ hs.1 r
  | invalid w => exact absurd h (by simp [State.worth])

theorem withVal_effect {i : Instr} {s : State} {p : Nat} {o : Operand} {k : Word → State}
    (h : ∀ v, s.ip.toNat + p ≤ 32767 → s.worth o = some v → Effect i s (k v)) :
    Effect i s (s.withVal p o k) := by
  obtain ⟨v, hp, hv, he⟩ | ⟨f, hf, he⟩ := withVal_cases (s := s) p o k
  · exact he ▸ h v hp hv
  · exact he ▸ .fault f (valueFault_ip hf)

theorem withTgt_effect {i : Instr} {s : State} {o : Operand} {v : Word} {k : State → State}
    (h : ∀ r, o = .reg r → Effect i s (k (s.setReg r v))) : Effect i s (s.withTgt o v k) := by
  obtain ⟨r, -, hr, he⟩ | ⟨f, hf, he⟩ := withTgt_cases (s := s) o v k
  · exact he ▸ h r hr
  · exact he ▸ .fault f (targetFault_ip hf)

theorem binaryRule_effect {i : Instr} {s : State} {f : Word → Word → Word} {a b c : Operand}
    (hi : i.target? = some a)
    (hf : ∀ x y : Word, x.toNat ≤ 32767 → y.toNat ≤ 32767 → (f x y).toNat ≤ 32767) :
    Effect i s (s.binaryRule f a b c) :=
  withVal_effect fun _ _ hb => withVal_effect fun _ _ hc => withTgt_effect fun r hr =>
    .wrote r _ _ (hi.trans (congrArg some hr))
      (.inr fun hs => hf _ _ (worth_le hs hb) (worth_le hs hc))

theorem unaryRule_effect {i : Instr} {s : State} {f : Word → Word} {a b : Operand}
    (hi : i.target? = some a) (hf : ∀ x : Word, x.toNat ≤ 32767 → (f x).toNat ≤ 32767) :
    Effect i s (s.unaryRule f a b) :=
  withVal_effect fun _ _ hb => withTgt_effect fun r hr =>
    .wrote r _ _ (hi.trans (congrArg some hr)) (.inr fun hs => hf _ (worth_le hs hb))

theorem truthWord_le (b : Bool) : (truthWord b).toNat ≤ 32767 := by cases b <;> decide

theorem ofNat_mod_le (n : Nat) : (BitVec.ofNat 16 (n % 32768)).toNat ≤ 32767 := by
  simp only [BitVec.toNat_ofNat]
  omega

theorem modWord_le {x y : Word} (hx : x.toNat ≤ 32767) : (modWord x y).toNat ≤ 32767 := by
  have := Nat.mod_le x.toNat y.toNat
  simp only [modWord, BitVec.toNat_ofNat]
  omega

theorem and_le {x y : Word} (hx : x.toNat ≤ 32767) : (x &&& y).toNat ≤ 32767 := by
  rw [BitVec.toNat_and]
  exact Nat.le_trans Nat.and_le_left hx

theorem or_le {x y : Word} (hx : x.toNat ≤ 32767) (hy : y.toNat ≤ 32767) :
    (x ||| y).toNat ≤ 32767 := by
  rw [BitVec.toNat_or]
  exact Nat.le_of_lt_succ (Nat.or_lt_two_pow (n := 15) (by omega) (by omega))

theorem notWord_le (x : Word) : (notWord x).toNat ≤ 32767 := by
  rw [notWord, BitVec.toNat_and]
  exact Nat.and_le_right

theorem topWord_none {s : State} (h : s.topWord = none) : s.stack = [] :=
  List.getLast?_eq_none_iff.mp h

theorem topWord_some {s : State} {v : Word} (h : s.topWord = some v) :
    s.stack = s.stack.dropLast ++ [v] := by
  obtain ⟨rest, hr⟩ := List.getLast?_eq_some_iff.mp h
  rw [hr, List.dropLast_concat]

theorem memRead_cases (s : State) (a : Nat) :
    (a ≤ 32767 ∧ s.memRead a = .ok (s.mem.get a)) ∨
      (32767 < a ∧ s.memRead a = .error (outOfRange a)) := by
  by_cases h : a ≤ 32767
  · exact .inl ⟨h, if_pos (Nat.lt_succ_of_le h)⟩
  · exact .inr ⟨by omega, if_neg (mt Nat.le_of_lt_succ h)⟩

theorem memWrite_cases (s : State) (a : Nat) (v : Word) :
    (a ≤ 32767 ∧ s.memWrite a v = .ok { s with mem := s.mem.set a v }) ∨
      (32767 < a ∧ s.memWrite a v = .error (outOfRange a)) := by
  by_cases h : a ≤ 32767
  · exact .inl ⟨h, if_pos (Nat.lt_succ_of_le h)⟩
  · exact .inr ⟨by omega, if_neg (mt Nat.le_of_lt_succ h)⟩

/-- `in` with no byte on offer. -/
theorem execInp_nil {s : State} (a : Operand) (ho : s.offered = []) :
    execInp a s = .next (if s.cancel then s.haltCancelled else s.wait .waitIn) := by
  unfold execInp
  rw [ho]

/-- `in` with a byte on offer. -/
theorem execInp_cons {s : State} (a : Operand) {b : Byte} {rest : List Byte}
    (ho : s.offered = b :: rest) :
    execInp a s = .next (if s.cancel then
      if Config.tieTakesByte s.ties then s.countTie.receive a b rest else s.countTie.haltCancelled
    else s.receive a b rest) := by
  unfold execInp
  rw [ho]

theorem receive_effect {s : State} {a : Operand} {b : Byte} {rest : List Byte} {k : Nat}
    (ho : s.offered = b :: rest) :
    Effect (.inp a) s (({ s with ties := k } : State).receive a b rest) := by
  unfold State.receive
  obtain ⟨r, -, rfl, he⟩ | ⟨f, hf, he⟩ := withTgt_cases
    (s := ({ s with ties := k } : State).takeByte rest) a (b.setWidth 16) fun t => t.advance 2
  · exact he ▸ .received r b rest k _ rfl ho
  · exact he ▸ .receivedFault a b rest k f rfl ho (targetFault_ip hf)

/-- Every instruction gives a next state, and it is one of `Effect`'s. -/
theorem exec_effect (i : Instr) (s : State) : ∃ t, exec i s = .next t ∧ Effect i s t := by
  cases i with
  | halt => exact ⟨_, rfl, .halted (.inl rfl)⟩
  | set a b => exact ⟨_, rfl, unaryRule_effect rfl fun _ h => h⟩
  | push a =>
    refine ⟨_, rfl, withVal_effect fun v _ hv => ?_⟩
    split
    · exact .fault _ rfl
    · rename_i hf
      exact .pushed v _ (.inl ⟨a, rfl, hv⟩) (Bool.eq_false_iff.mpr hf)
  | pop a =>
    refine ⟨_, rfl, ?_⟩
    split
    · exact .fault _ rfl
    · rename_i v hv
      exact withTgt_effect fun r hr => .popped r v _ _ (congrArg _ hr) (topWord_some hv)
  | eq a b c => exact ⟨_, rfl, binaryRule_effect rfl fun _ _ _ _ => truthWord_le _⟩
  | gt a b c => exact ⟨_, rfl, binaryRule_effect rfl fun _ _ _ _ => truthWord_le _⟩
  | jmp a => exact ⟨_, rfl, withVal_effect fun _ _ _ => .moved _ (.inr (.inl ⟨a, rfl⟩))⟩
  | jt a b =>
    refine ⟨_, rfl, withVal_effect fun _ _ _ => withVal_effect fun _ _ _ => ?_⟩
    split <;> exact .moved _ (.inr (.inr (.inl ⟨a, b, rfl⟩)))
  | jf a b =>
    refine ⟨_, rfl, withVal_effect fun _ _ _ => withVal_effect fun _ _ _ => ?_⟩
    split <;> exact .moved _ (.inr (.inr (.inr ⟨a, b, rfl⟩)))
  | add a b c => exact ⟨_, rfl, binaryRule_effect rfl fun _ _ _ _ => ofNat_mod_le _⟩
  | mult a b c => exact ⟨_, rfl, binaryRule_effect rfl fun _ _ _ _ => ofNat_mod_le _⟩
  | mod a b c =>
    refine ⟨_, rfl, withVal_effect fun x _ hx => withVal_effect fun y _ _ => ?_⟩
    split
    · exact .fault _ rfl
    · exact withTgt_effect fun r hr => .wrote r _ _ (congrArg some hr)
        (.inr fun hs => modWord_le (worth_le hs hx))
  | and a b c => exact ⟨_, rfl, binaryRule_effect rfl fun _ _ h _ => and_le h⟩
  | or a b c => exact ⟨_, rfl, binaryRule_effect rfl fun _ _ h h' => or_le h h'⟩
  | not a b => exact ⟨_, rfl, unaryRule_effect rfl fun x _ => notWord_le x⟩
  | rmem a b =>
    refine ⟨_, rfl, withVal_effect fun x _ _ => ?_⟩
    obtain ⟨-, he⟩ | ⟨-, he⟩ := memRead_cases s x.toNat
    · rw [he]
      exact withTgt_effect fun r hr => .wrote r _ _ (congrArg some hr) (.inl ⟨a, b, rfl⟩)
    · rw [he]
      exact .fault _ rfl
  | wmem a b =>
    refine ⟨_, rfl, withVal_effect fun x _ hx => withVal_effect fun w _ hw => ?_⟩
    obtain ⟨hr, he⟩ | ⟨-, he⟩ := memWrite_cases s x.toNat w
    · rw [he]
      exact .stored a b x w _ rfl hx hw hr
    · rw [he]
      exact .fault _ rfl
  | call a =>
    refine ⟨_, rfl, withVal_effect fun t hp _ => ?_⟩
    split
    · exact .fault _ rfl
    · rename_i hf
      exact .pushed _ t (.inr ⟨⟨a, rfl⟩, rfl, hp⟩) (Bool.eq_false_iff.mpr hf)
  | ret =>
    refine ⟨_, rfl, ?_⟩
    split
    · rename_i h
      exact .halted (.inr ⟨rfl, topWord_none h⟩)
    · rename_i v hv
      exact .returned v _ rfl (topWord_some hv)
  | out a =>
    refine ⟨_, rfl, withVal_effect fun v hp hv => ?_⟩
    split
    · rename_i hs
      exact .emitted a v _ rfl hv hs
    · rename_i hs
      exact .waitsOut a v rfl hp hv (Bool.eq_false_iff.mpr hs)
  | inp a =>
    refine ⟨_, rfl, ?_⟩
    split
    · rename_i ho
      split
      · rename_i hc
        exact .cancelled a s.ties rfl hc
      · rename_i hc
        exact .waitsIn a rfl ho (Bool.eq_false_iff.mpr hc)
    · rename_i b rest ho
      split
      · rename_i hc
        split
        · exact receive_effect (k := s.ties + 1) ho
        · exact .cancelled a (s.ties + 1) rfl hc
      · exact receive_effect (k := s.ties) ho
  | nop => exact ⟨_, rfl, .moved _ (.inl rfl)⟩

theorem effect_of_exec {i : Instr} {s t : State} (h : exec i s = .next t) : Effect i s t := by
  obtain ⟨t', ht, he⟩ := exec_effect i s
  rw [h] at ht
  cases ht
  exact he

end Sys2Proof.Machine
end

