-- ==== Sys2Proof/Laws/PerInstr.lean ====
section
/-! SUPPORT. Statements made instruction by instruction. -/

/-- 30_encoding.md R65, R66: an instruction is encoded in `L(op)` words, at most 4, the first of them
its opcode number, which is at most 21. -/
def Sys2Proof.Laws.EncodedShape.Statement (i : Sys2Proof.Instr) : Prop :=
  (Sys2Proof.encode i).length = i.length ∧ i.length ≤ 4 ∧ i.opcode ≤ 21 ∧
    (Sys2Proof.encode i).head? = some (BitVec.ofNat 16 i.opcode)

theorem Sys2Proof.Laws.EncodedShape.halt :
    Sys2Proof.Laws.EncodedShape.Statement .halt :=
  ⟨rfl, Nat.le_of_ble_eq_true rfl, Nat.le_of_ble_eq_true rfl, rfl⟩

theorem Sys2Proof.Laws.EncodedShape.set (a b : Sys2Proof.Operand) :
    Sys2Proof.Laws.EncodedShape.Statement (.set a b) :=
  ⟨rfl, Nat.le_of_ble_eq_true rfl, Nat.le_of_ble_eq_true rfl, rfl⟩

theorem Sys2Proof.Laws.EncodedShape.push (a : Sys2Proof.Operand) :
    Sys2Proof.Laws.EncodedShape.Statement (.push a) :=
  ⟨rfl, Nat.le_of_ble_eq_true rfl, Nat.le_of_ble_eq_true rfl, rfl⟩

theorem Sys2Proof.Laws.EncodedShape.pop (a : Sys2Proof.Operand) :
    Sys2Proof.Laws.EncodedShape.Statement (.pop a) :=
  ⟨rfl, Nat.le_of_ble_eq_true rfl, Nat.le_of_ble_eq_true rfl, rfl⟩

theorem Sys2Proof.Laws.EncodedShape.eq (a b c : Sys2Proof.Operand) :
    Sys2Proof.Laws.EncodedShape.Statement (.eq a b c) :=
  ⟨rfl, Nat.le_of_ble_eq_true rfl, Nat.le_of_ble_eq_true rfl, rfl⟩

theorem Sys2Proof.Laws.EncodedShape.gt (a b c : Sys2Proof.Operand) :
    Sys2Proof.Laws.EncodedShape.Statement (.gt a b c) :=
  ⟨rfl, Nat.le_of_ble_eq_true rfl, Nat.le_of_ble_eq_true rfl, rfl⟩

theorem Sys2Proof.Laws.EncodedShape.jmp (a : Sys2Proof.Operand) :
    Sys2Proof.Laws.EncodedShape.Statement (.jmp a) :=
  ⟨rfl, Nat.le_of_ble_eq_true rfl, Nat.le_of_ble_eq_true rfl, rfl⟩

theorem Sys2Proof.Laws.EncodedShape.jt (a b : Sys2Proof.Operand) :
    Sys2Proof.Laws.EncodedShape.Statement (.jt a b) :=
  ⟨rfl, Nat.le_of_ble_eq_true rfl, Nat.le_of_ble_eq_true rfl, rfl⟩

theorem Sys2Proof.Laws.EncodedShape.jf (a b : Sys2Proof.Operand) :
    Sys2Proof.Laws.EncodedShape.Statement (.jf a b) :=
  ⟨rfl, Nat.le_of_ble_eq_true rfl, Nat.le_of_ble_eq_true rfl, rfl⟩

theorem Sys2Proof.Laws.EncodedShape.add (a b c : Sys2Proof.Operand) :
    Sys2Proof.Laws.EncodedShape.Statement (.add a b c) :=
  ⟨rfl, Nat.le_of_ble_eq_true rfl, Nat.le_of_ble_eq_true rfl, rfl⟩

theorem Sys2Proof.Laws.EncodedShape.mult (a b c : Sys2Proof.Operand) :
    Sys2Proof.Laws.EncodedShape.Statement (.mult a b c) :=
  ⟨rfl, Nat.le_of_ble_eq_true rfl, Nat.le_of_ble_eq_true rfl, rfl⟩

theorem Sys2Proof.Laws.EncodedShape.mod (a b c : Sys2Proof.Operand) :
    Sys2Proof.Laws.EncodedShape.Statement (.mod a b c) :=
  ⟨rfl, Nat.le_of_ble_eq_true rfl, Nat.le_of_ble_eq_true rfl, rfl⟩

theorem Sys2Proof.Laws.EncodedShape.and (a b c : Sys2Proof.Operand) :
    Sys2Proof.Laws.EncodedShape.Statement (.and a b c) :=
  ⟨rfl, Nat.le_of_ble_eq_true rfl, Nat.le_of_ble_eq_true rfl, rfl⟩

theorem Sys2Proof.Laws.EncodedShape.or (a b c : Sys2Proof.Operand) :
    Sys2Proof.Laws.EncodedShape.Statement (.or a b c) :=
  ⟨rfl, Nat.le_of_ble_eq_true rfl, Nat.le_of_ble_eq_true rfl, rfl⟩

theorem Sys2Proof.Laws.EncodedShape.not (a b : Sys2Proof.Operand) :
    Sys2Proof.Laws.EncodedShape.Statement (.not a b) :=
  ⟨rfl, Nat.le_of_ble_eq_true rfl, Nat.le_of_ble_eq_true rfl, rfl⟩

theorem Sys2Proof.Laws.EncodedShape.rmem (a b : Sys2Proof.Operand) :
    Sys2Proof.Laws.EncodedShape.Statement (.rmem a b) :=
  ⟨rfl, Nat.le_of_ble_eq_true rfl, Nat.le_of_ble_eq_true rfl, rfl⟩

theorem Sys2Proof.Laws.EncodedShape.wmem (a b : Sys2Proof.Operand) :
    Sys2Proof.Laws.EncodedShape.Statement (.wmem a b) :=
  ⟨rfl, Nat.le_of_ble_eq_true rfl, Nat.le_of_ble_eq_true rfl, rfl⟩

theorem Sys2Proof.Laws.EncodedShape.call (a : Sys2Proof.Operand) :
    Sys2Proof.Laws.EncodedShape.Statement (.call a) :=
  ⟨rfl, Nat.le_of_ble_eq_true rfl, Nat.le_of_ble_eq_true rfl, rfl⟩

theorem Sys2Proof.Laws.EncodedShape.ret :
    Sys2Proof.Laws.EncodedShape.Statement .ret :=
  ⟨rfl, Nat.le_of_ble_eq_true rfl, Nat.le_of_ble_eq_true rfl, rfl⟩

theorem Sys2Proof.Laws.EncodedShape.out (a : Sys2Proof.Operand) :
    Sys2Proof.Laws.EncodedShape.Statement (.out a) :=
  ⟨rfl, Nat.le_of_ble_eq_true rfl, Nat.le_of_ble_eq_true rfl, rfl⟩

theorem Sys2Proof.Laws.EncodedShape.inp (a : Sys2Proof.Operand) :
    Sys2Proof.Laws.EncodedShape.Statement (.inp a) :=
  ⟨rfl, Nat.le_of_ble_eq_true rfl, Nat.le_of_ble_eq_true rfl, rfl⟩

theorem Sys2Proof.Laws.EncodedShape.nop :
    Sys2Proof.Laws.EncodedShape.Statement .nop :=
  ⟨rfl, Nat.le_of_ble_eq_true rfl, Nat.le_of_ble_eq_true rfl, rfl⟩
end

