-- ==== Sys2Proof/Laws/Step.lean ====
section
/-! SUPPORT. Said once: everything one step can do (`Move`, `step_move`), and how the engine's turn
begins (`step_of_movesBy`, `cycle_of_fetches`). -/

namespace Sys2Proof.Machine

/-- The instruction the decoder reads at `ip`. -/
def State.atIp (s : State) : Option Instr :=
  decodeOp (s.mem.get s.ip.toNat) (s.mem.get (s.ip.toNat + 1)) (s.mem.get (s.ip.toNat + 2))
    (s.mem.get (s.ip.toNat + 3))

/-- What the engine's turn can give, from the state `s` in which it is taken. -/
inductive Turn (s : State) : State → Prop
  /-- the core does not run -/
  | still (h : s.run ≠ .running) : Turn s s
  /-- the cancellation check of R81 ends the run -/
  | cancelledAtTop (hr : s.run = .running) (hp : s.phase = .top) (hc : s.cancel = true) :
      Turn s s.endedCancelled
  /-- the fetch or the dispatch faults -/
  | fetchFault (f : FaultRecord) (hr : s.run = .running) (hf : f.ip = s.ip) : Turn s (s.faulted f)
  /-- an instruction runs -/
  | ran (i : Instr) (t : State) (hr : s.run = .running) (hp : s.ip.toNat ≤ 32767)
      (hi : s.atIp = some i) (h : exec i s = .next t) : Turn s t

theorem fetchAndRun_above {s : State} (h : 32767 < s.ip.toNat) :
    s.fetchAndRun = .next (s.faulted (s.record .addressOutOfRange (some s.ip) none)) := by
  unfold State.fetchAndRun
  obtain ⟨hle, -⟩ | ⟨-, he⟩ := memRead_cases s s.ip.toNat
  · omega
  · rw [he]
    simp only [raise_eq_faulted, outOfRange, BitVec.ofNat_toNat, BitVec.setWidth_eq]

theorem fetchAndRun_in {s : State} (h : s.ip.toNat ≤ 32767) :
    s.fetchAndRun = match s.atIp with
      | none => .next (s.faulted (s.record .invalidOpcode (some s.ip) (some (s.mem.get s.ip.toNat))))
      | some i => exec i s := by
  unfold State.fetchAndRun
  obtain ⟨-, he⟩ | ⟨hlt, -⟩ := memRead_cases s s.ip.toNat
  · rw [he]
    rfl
  · omega

theorem fetchAndRun_turn {s : State} (hr : s.run = .running) :
    ∃ t, s.fetchAndRun = .next t ∧ Turn s t := by
  by_cases h : s.ip.toNat ≤ 32767
  · rw [fetchAndRun_in h]
    cases hi : s.atIp with
    | none => exact ⟨_, rfl, .fetchFault _ hr rfl⟩
    | some i =>
      obtain ⟨t, ht, -⟩ := exec_effect i s
      exact ⟨t, ht, .ran i t hr h hi ht⟩
  · rw [fetchAndRun_above (by omega)]
    exact ⟨_, rfl, .fetchFault _ hr rfl⟩

/-- The engine that does not stop at the cancellation check fetches. -/
theorem cycle_of_fetches {s : State} (h : s.Fetches) : s.cycle = s.fetchAndRun := by
  unfold State.cycle
  rw [h.1]
  cases hp : s.phase with
  | top => simp [h.2 hp]
  | waitIn => rfl
  | waitOut => rfl

theorem cycle_cancelled {s : State} (hr : s.run = .running) (hp : s.phase = .top)
    (hc : s.cancel = true) : s.cycle = .next s.endedCancelled := by
  unfold State.cycle
  rw [hr, hp, hc]
  rfl

theorem cycle_still {s : State} (h : s.run ≠ .running) : s.cycle = .next s := by
  unfold State.cycle
  cases hr : s.run <;> first | rfl | exact absurd hr h

/-- The engine's turn always gives a next state, and it is one of `Turn`'s. -/
theorem cycle_turn (s : State) : ∃ t, s.cycle = .next t ∧ Turn s t := by
  by_cases hr : s.run = .running
  · by_cases hc : s.phase = .top ∧ s.cancel = true
    · exact ⟨_, cycle_cancelled hr hc.1 hc.2, .cancelledAtTop hr hc.1 hc.2⟩
    · have hf : s.Fetches := ⟨hr, fun hp => Bool.eq_false_iff.mpr fun h => hc ⟨hp, h⟩⟩
      rw [cycle_of_fetches hf]
      exact fetchAndRun_turn hr
  · exact ⟨s, cycle_still hr, .still hr⟩

/-- A state that steps to itself stays as it is for any number of steps. -/
theorem run_of_fixed {s : State} (h : step s = .next s) (n : Nat) :
    Sys2Proof.core.run n s = .next s := by
  induction n with
  | zero => rfl
  | succ k ih =>
    have e := Host.Core.run.eq_2 Sys2Proof.core s k
    rw [show Sys2Proof.core.step s = .next s from h] at e
    exact e.trans ih

/-- Which move comes next changes nothing but the moves still to come. -/
theorem movesBy_frame {s t : State} {e : Event} (h : s.MovesBy e t) :
    ∃ rest n, t = { s with schedule := rest, later := n } := by
  obtain ⟨rest, -, rfl⟩ | ⟨-, -, -, rfl⟩ | ⟨n, rest, -, -, -, rfl⟩ := h
  · exact ⟨rest, s.later, rfl⟩
  · exact ⟨t.schedule, t.later, rfl⟩
  · exact ⟨rest, some (n + 1), rfl⟩

/-- A round of an environment without end has a first move. -/
theorem laterRound_cons (n : Nat) : ∃ e rest, laterRound n = e :: rest :=
  List.exists_cons_of_ne_nil (by simp [laterRound])

/-- The move that comes next is the one `nextMove` computes. -/
theorem movesBy_iff {s t : State} {e : Event} : s.MovesBy e t ↔ s.nextMove = (e, t) := by
  unfold State.MovesBy State.nextMove State.refill
  cases hs : s.schedule with
  | cons e' rest => simp [hs, eq_comm]
  | nil =>
    cases hl : s.later with
    | none => simp [hs, eq_comm]
    | some n =>
      obtain ⟨e', rest, hr⟩ := laterRound_cons n
      simp [hr, eq_comm]

theorem step_of_movesBy {s t : State} {e : Event} (h : s.MovesBy e t) : step s = t.onEvent e := by
  unfold step State.move
  rw [movesBy_iff.mp h]

theorem step_of_engineMoves {s t : State} (h : s.EngineMoves t) : step s = t.cycle :=
  step_of_movesBy h

theorem fetches_of_engineMoves {s t : State} (h : s.EngineMoves t) (hf : s.Fetches) : t.Fetches := by
  obtain ⟨_, _, rfl⟩ := movesBy_frame h
  exact hf

/-- Every next state a step can give, `t0` being the state in which its move is made. -/
inductive Move (s t0 : State) : State → Prop
  /-- the engine's turn -/
  | turn (t : State) (h : s.MovesBy .engine t0) (ht : Turn t0 t) : Move s t0 t
  /-- START -/
  | started (h : s.MovesBy .start t0) (hr : t0.run = .idle) : Move s t0 { t0 with run := .running }
  /-- CANCEL -/
  | latched (h : s.MovesBy .requestHalt t0) : Move s t0 { t0 with cancel := true }
  /-- RESULT taken, `true`, or not there yet, `false` -/
  | tookResult (b : Bool) (h : s.MovesBy .takeResult t0) (hr : t0.run ≠ .idle)
      (hb : b = true → t0.result ≠ none) (ht : t0.resultTaken = false) :
      Move s t0 { t0 with resultTaken := b }
  /-- a byte offered -/
  | offered (b : Byte) (h : s.MovesBy (.offer b) t0) :
      Move s t0 { t0 with offered := t0.offered ++ [b] }
  /-- the sink's readiness -/
  | sinkSet (b : Bool) (h : s.MovesBy (.sink b) t0) : Move s t0 (t0.setSink b)

/-- The state in which a move is made differs from the state before in the moves still to come only. -/
theorem Move.frame {s t0 t : State} (h : Move s t0 t) :
    ∃ rest n, t0 = { s with schedule := rest, later := n } := by
  cases h with
  | turn _ h => exact movesBy_frame h
  | started h => exact movesBy_frame h
  | latched h => exact movesBy_frame h
  | tookResult _ h => exact movesBy_frame h
  | offered _ h => exact movesBy_frame h
  | sinkSet _ h => exact movesBy_frame h

theorem onEvent_move {s t0 t : State} {e : Event} (hm : s.MovesBy e t0)
    (h : t0.onEvent e = .next t) : Move s t0 t := by
  cases e with
  | start =>
    simp only [State.onEvent, State.start] at h
    split at h
    · rename_i hr
      cases h
      exact .started hm hr
    · cases h
  | requestHalt =>
    cases h
    exact .latched hm
  | takeResult =>
    simp only [State.onEvent, State.takeResult] at h
    split at h
    · cases h
    · rename_i hr
      split at h
      · cases h
      · rename_i htk
        have ht : t0.resultTaken = false := Bool.eq_false_iff.mpr htk
        split at h
        · cases h
          have := Move.tookResult (s := s) t0.resultTaken hm hr (by rw [ht]; simp) ht
          exact this
        · rename_i r hres
          cases h
          exact .tookResult true hm hr (by rw [hres]; simp) ht
  | offer b =>
    cases h
    exact .offered b hm
  | sink b =>
    cases h
    exact .sinkSet b hm
  | engine =>
    obtain ⟨t', ht', htu⟩ := cycle_turn t0
    rw [State.onEvent, ht'] at h
    cases h
    exact .turn _ hm htu

theorem step_move {s t : State} (h : step s = .next t) : ∃ t0, Move s t0 t :=
  ⟨_, onEvent_move (movesBy_iff.mpr rfl) h⟩

theorem kept_rfl (s : State) : s.KeptUntilTurn s :=
  ⟨rfl, rfl, rfl, rfl, rfl, rfl, rfl, id, ⟨[], (List.append_nil _).symm⟩, fun _ => id⟩

theorem kept_trans {s t u : State} (h : s.KeptUntilTurn t) (h' : t.KeptUntilTurn u) :
    s.KeptUntilTurn u := by
  obtain ⟨more, hm⟩ := h.onOffer
  obtain ⟨more', hm'⟩ := h'.onOffer
  exact ⟨h'.regs.trans h.regs, h'.mem.trans h.mem, h'.stack.trans h.stack, h'.ip.trans h.ip,
    h'.run.trans h.run, h'.phase.trans h.phase, h'.outTrace.trans h.outTrace, h'.latch ∘ h.latch,
    ⟨more ++ more', by rw [hm', hm, List.append_assoc]⟩,
    fun hp hs => h'.sink (h.phase.trans hp) (h.sink hp hs)⟩

/-- While the core runs, every move but START and the engine's turn is made, and keeps what the engine
needs until its turn. -/
theorem outside_kept {s t0 : State} {e : Event} (hi : s.Inv) (hr : s.run = .running)
    (h : s.MovesBy e t0) (hs : e ≠ .start) (he : e ≠ .engine) :
    ∃ t, step s = .next t ∧ s.KeptUntilTurn t ∧ t.schedule = t0.schedule := by
  rw [step_of_movesBy h]
  obtain ⟨rest, n, rfl⟩ := movesBy_frame h
  have hk := kept_rfl s
  cases e with
  | start => exact absurd rfl hs
  | engine => exact absurd rfl he
  | requestHalt =>
    exact ⟨_, rfl, ⟨rfl, rfl, rfl, rfl, rfl, rfl, rfl, fun _ => rfl, hk.onOffer, hk.sink⟩, rfl⟩
  | offer b =>
    exact ⟨_, rfl, ⟨rfl, rfl, rfl, rfl, rfl, rfl, rfl, id, ⟨[b], rfl⟩, hk.sink⟩, rfl⟩
  | sink b =>
    exact ⟨_, rfl, ⟨rfl, rfl, rfl, rfl, rfl, rfl, rfl, id, hk.onOffer,
      fun hp hb => if_pos ⟨hb, hp⟩⟩, rfl⟩
  | takeResult =>
    have ht : s.resultTaken = false := by
      cases hb : s.resultTaken with
      | false => rfl
      | true => exact absurd (hi.takenPublished hb) (by rw [hr]; exact Bool.false_ne_true)
    have hn : s.result = none := by rw [hi.resultOfRun, hr]; rfl
    refine ⟨{ s with schedule := rest, later := n }, ?_,
      ⟨rfl, rfl, rfl, rfl, rfl, rfl, rfl, id, hk.onOffer, hk.sink⟩, rfl⟩
    simp only [State.onEvent, State.takeResult, hr, ht, hn, Bool.false_eq_true, if_false]

/-- A round of an environment without end has a turn of the engine in it, and no START. -/
theorem engine_mem_laterRound (n : Nat) : Event.engine ∈ laterRound n := by simp [laterRound]

theorem start_not_mem_laterRound (n : Nat) : Event.start ∉ laterRound n := by
  simp only [laterRound, List.mem_append, List.mem_map, List.mem_singleton, reduceCtorEq, or_false]
  rintro ⟨m, -, hm⟩
  cases m <;> cases hm

end Sys2Proof.Machine
end

