-- ==== Sys2Proof/Tests/Slice0.lean ====
section
/-! SUPPORT. Tests: expected results are copied from the spec (30_encoding.md and the vectors of
95_test_vectors.md), and for every statement with hypotheses a concrete state and operands that meet
them all, at a boundary of their ranges, one for each clause. -/

namespace Sys2Proof.Tests

open Sys2Proof.Machine

/-! ## Small states -/

/-- A running core with an image, about to fetch at 0, and the first registers' contents. -/
def running (image : List Word) (r0 r1 r2 : Word := 0) : State :=
  { State.reset with
    mem := Memory.loadFrom 0 image
    run := .running
    regs := ((Vector.replicate 8 0).set 0 r0 |>.set 1 r1 |>.set 2 r2) }

/-- The state one step later, when there is one. -/
def stepped (s : State) : Option State :=
  match step s with
  | .next t => some t
  | .fault _ => none
  | .refused _ => none

/-- One register and `ip` after a step. -/
def regAfter (s : State) (r : RegIdx) : Option (Word × Word) :=
  (stepped s).map fun t => (t.regs[r], t.ip)

/-- `ip` and the stack after a step. -/
def flowAfter (s : State) : Option (Word × List Word) := (stepped s).map fun t => (t.ip, t.stack)

/-- The run status after a step. -/
def runAfter (s : State) : Option RunStatus := (stepped s).map State.run

/-- The run status of a fault record `(code, ip, addr, value)`. -/
def faultedAt (code : FaultCode) (ip : Word) (addr value : Option Word) : Option RunStatus :=
  some (.haltedFaulted { code := code, ip := ip, addr := addr, value := value })

/-! ## Well-formedness -/

/-- An operand that claims an invalid class for the word of a literal is refused, whatever the
position it stands in (R63). -/
theorem test_wf_refuses_mislabelled_operand :
    Operand.wf (.invalid 5) = false ∧ Operand.wf (.invalid 32775) = false ∧
    Instr.wf (.add (.invalid 5) (.lit 0) (.lit 0)) = false ∧
    Instr.wf (.add (.reg 0) (.invalid 5) (.lit 0)) = false ∧
    Instr.wf (.add (.reg 0) (.lit 0) (.invalid 32768)) = false ∧
    Instr.wf (.out (.invalid 32775)) = false := by decide

/-- Operands of the wrong kind are well formed, and not legal (R64). -/
theorem test_kinds_refuse_wrong_operand :
    Instr.wf (.set (.lit 5) (.lit 6)) = true ∧ Instr.legal (.set (.lit 5) (.lit 6)) = false ∧
    Instr.legal (.set (.invalid 32776) (.lit 6)) = false ∧
    Instr.legal (.push (.invalid 65535)) = false ∧
    Instr.legal (.wmem (.lit 50) (.reg 7)) = true := by decide

/-! ## Decoding: the words are those of R61, R63, R66 -/

theorem test_decode_halt : decode [0] = .ok (.halt, []) := by decide
theorem test_decode_set : decode [1, 32768, 5] = .ok (.set (.reg 0) (.lit 5), []) := by decide
theorem test_decode_push : decode [2, 32767, 9] = .ok (.push (.lit 32767), [9]) := by decide
theorem test_decode_pop : decode [3, 32775] = .ok (.pop (.reg 7), []) := by decide
theorem test_decode_eq :
    decode [4, 32768, 5, 6] = .ok (.eq (.reg 0) (.lit 5) (.lit 6), []) := by decide
theorem test_decode_gt :
    decode [5, 32769, 32776, 65535] = .ok (.gt (.reg 1) (.invalid 32776) (.invalid 65535), []) := by
  decide
theorem test_decode_jmp : decode [6, 100] = .ok (.jmp (.lit 100), []) := by decide
theorem test_decode_jt : decode [7, 32768, 3] = .ok (.jt (.reg 0) (.lit 3), []) := by decide
theorem test_decode_jf : decode [8, 32769, 21] = .ok (.jf (.reg 1) (.lit 21), []) := by decide
theorem test_decode_add :
    decode [9, 32768, 32769, 4] = .ok (.add (.reg 0) (.reg 1) (.lit 4), []) := by decide
theorem test_decode_mult :
    decode [10, 32770, 32768, 32769] = .ok (.mult (.reg 2) (.reg 0) (.reg 1), []) := by decide
theorem test_decode_mod :
    decode [11, 3, 7, 0] = .ok (.mod (.lit 3) (.lit 7) (.lit 0), []) := by decide
theorem test_decode_and :
    decode [12, 32768, 21845, 13107] = .ok (.and (.reg 0) (.lit 21845) (.lit 13107), []) := by decide
theorem test_decode_or :
    decode [13, 32768, 21845, 10922] = .ok (.or (.reg 0) (.lit 21845) (.lit 10922), []) := by decide
theorem test_decode_not : decode [14, 32768, 0] = .ok (.not (.reg 0) (.lit 0), []) := by decide
theorem test_decode_rmem : decode [15, 32771, 50] = .ok (.rmem (.reg 3) (.lit 50), []) := by decide
theorem test_decode_wmem : decode [16, 50, 32770] = .ok (.wmem (.lit 50) (.reg 2), []) := by decide
theorem test_decode_call : decode [17, 32] = .ok (.call (.lit 32), []) := by decide
theorem test_decode_ret : decode [18, 19] = .ok (.ret, [19]) := by decide
theorem test_decode_out : decode [19, 32769] = .ok (.out (.reg 1), []) := by decide
theorem test_decode_in : decode [20, 32768] = .ok (.inp (.reg 0), []) := by decide
theorem test_decode_nop : decode [21] = .ok (.nop, []) := by decide

/-- 95_test_vectors.md 2.10: all 16 bits of the opcode word count; a register reference is no
opcode; too few words and half a word are refused by name. -/
theorem test_decode_rejects :
    decode [22] = .error (.invalidOpcode 22) ∧ decode [255] = .error (.invalidOpcode 255) ∧
    decode [277, 1] = .error (.invalidOpcode 277) ∧
    decode [32768] = .error (.invalidOpcode 32768) ∧
    decode [65535] = .error (.invalidOpcode 65535) ∧
    decode [] = .error .truncated ∧ decode [9, 32768, 1] = .error .truncated ∧
    decodeBytes [21] = .error .oddByteCount := by decide

/-- R73: the image bytes of `set r0, 5`. -/
theorem test_image_bytes :
    bytesOfWords (encode (.set (.reg 0) (.lit 5))) = [0x01, 0x00, 0x00, 0x80, 0x05, 0x00] ∧
    decodeBytes [0x01, 0x00, 0x00, 0x80, 0x05, 0x00] = .ok (.set (.reg 0) (.lit 5), []) ∧
    encode (.wmem (.lit 50) (.reg 7)) = [16, 50, 32775] := by decide

/-! ## One instruction each: 95_test_vectors.md, part 2 -/

theorem test_set_copies_word_above_15_bits :
    regAfter (running [1, 32768, 32769] 0 40000) 0 = some (40000, 3) := by decide
theorem test_set_value_fault_before_target :
    runAfter (running [1, 5, 40000]) = faultedAt .invalidValue 0 (some 2) (some 40000) := by decide
theorem test_push_register :
    flowAfter { running [2, 32769] 0 77 with stack := [3] } = some (2, [3, 77]) := by decide
theorem test_push_on_full_stack :
    runAfter { running [2, 1] with stack := [3], stackCap := some 1 } =
      faultedAt .stackOverflow 0 none none := by decide
theorem test_pop_top :
    (stepped { running [3, 32768] with stack := [3, 77] }).map (fun t => (t.regs[(0 : RegIdx)], t.stack, t.ip)) =
      some (77, [3], 2) := by decide
theorem test_pop_stack_before_target :
    runAfter (running [3, 5]) = faultedAt .stackUnderflow 0 none none ∧
    runAfter { running [3, 5] with stack := [9] } =
      faultedAt .notARegister 0 (some 1) (some 5) := by decide
theorem test_eq_unmasked : regAfter (running [4, 32768, 32769, 0] 9 32768) 0 = some (0, 4) := by decide
theorem test_eq_same_register : regAfter (running [4, 32768, 32768, 32768]) 0 = some (1, 4) := by decide
theorem test_gt_unsigned :
    regAfter (running [5, 32768, 32769, 32767] 0 40000) 0 = some (1, 4) := by decide
theorem test_gt_strict : regAfter (running [5, 32768, 5, 5] 9) 0 = some (0, 4) := by decide
theorem test_jmp_unchecked : flowAfter (running [6, 32768] 40000) = some (40000, []) := by decide
theorem test_jt_taken_on_bit_15 : flowAfter (running [7, 32768, 9] 32768) = some (9, []) := by decide
theorem test_jt_not_taken_still_validates :
    flowAfter (running [7, 0, 100]) = some (3, []) ∧
    runAfter (running [7, 0, 40000]) = faultedAt .invalidValue 0 (some 2) (some 40000) := by decide
theorem test_jf_mirror :
    flowAfter (running [8, 0, 4]) = some (4, []) ∧ flowAfter (running [8, 1, 4]) = some (3, []) := by
  decide
theorem test_call_pushes_ip_plus_two :
    flowAfter { running [17, 32768] 50 with stack := [1] } = some (50, [1, 2]) := by decide
theorem test_call_at_top_of_memory :
    flowAfter { running [] with mem := [(32766, 17), (32767, 3)], ip := 32766 } =
      some (3, [32768]) := by decide
theorem test_ret_pops : flowAfter { running [18] with stack := [8] } = some (8, []) := by decide
theorem test_ret_on_empty_halts : runAfter (running [18]) = some .haltedNormal := by decide
theorem test_add_wraps : regAfter (running [9, 32768, 32767, 1]) 0 = some (0, 4) := by decide
theorem test_add_source_is_target :
    regAfter (running [9, 32768, 32768, 32768] 20000) 0 = some (7232, 4) := by decide
theorem test_mult_wraps : regAfter (running [10, 32768, 182, 182]) 0 = some (356, 4) := by decide
theorem test_mult_full_words :
    regAfter (running [10, 32768, 32769, 32770] 0 65535 65535) 0 = some (1, 4) := by decide
theorem test_mod_not_reduced :
    regAfter (running [11, 32768, 32769, 32770] 0 40000 50000) 0 = some (40000, 4) := by decide
theorem test_mod_zero_before_target :
    runAfter (running [11, 3, 7, 0]) = faultedAt .divisionByZero 0 (some 3) (some 0) := by decide
theorem test_and_unmasked :
    regAfter (running [12, 32768, 32769, 32770] 0 65535 40000) 0 = some (40000, 4) := by decide
theorem test_or_unmasked : regAfter (running [13, 32768, 32769, 1] 0 32768) 0 = some (32769, 4) := by
  decide
theorem test_not_masked :
    regAfter (running [14, 32768, 32769] 0 65535) 0 = some (0, 3) ∧
    regAfter (running [14, 32768, 21845]) 0 = some (10922, 3) := by decide
theorem test_rmem_raw_word :
    regAfter (running [15, 32768, 4, 0, 40000]) 0 = some (40000, 3) := by decide
theorem test_rmem_out_of_range :
    runAfter (running [15, 32768, 32769] 0 32768) =
      faultedAt .addressOutOfRange 0 (some 32768) none := by decide
theorem test_wmem_over_its_own_opcode :
    (stepped (running [16, 0, 0, 0])).map (fun t => (t.mem.get 0, t.mem.get 1, t.ip, t.run)) =
      some (0, 0, 3, .running) := by decide
theorem test_wmem_register_operands :
    (stepped (running [16, 32768, 32769] 9 65535)).map (fun t => (t.mem.get 9, t.ip)) =
      some (65535, 3) := by decide
theorem test_halt_ends :
    (stepped (running [0])).map (fun t => (t.run, t.ip, t.outClosed, t.result)) =
      some (.haltedNormal, 0, true, some .success) := by decide
theorem test_out_low_byte :
    (stepped (running [19, 321])).map (fun t => (t.outTrace, t.ip)) = some ([65], 2) := by decide
theorem test_out_waits_under_cancel :
    (stepped { running [19, 65] with sinkReady := false, cancel := true, phase := .waitOut }).map
      (fun t => (t.run, t.ip, t.outTrace, t.phase)) = some (.running, 0, [], .waitOut) := by decide
theorem test_in_zero_extends :
    (stepped { running [20, 32768] 40000 with offered := [255, 7] }).map
      (fun t => (t.regs[(0 : RegIdx)], t.ip, t.offered, t.taken)) = some (255, 2, [7], 1) := by decide
theorem test_in_byte_lost_on_bad_target :
    (stepped { running [20, 5] with offered := [65] }).map (fun t => (t.run, t.taken, t.offered)) =
      some (.haltedFaulted { code := .notARegister, ip := 0, addr := some 1, value := some 5 }, 1, []) := by
  decide
theorem test_nop_only_advances :
    stepped (running [21] 1 2 3) = some { running [21] 1 2 3 with ip := 1 } := by decide

/-! ## The cycle and the ports -/

/-- 95_test_vectors.md S10, 2.8 and 2.9. -/
theorem test_cycle_faults_and_cancellation :
    runAfter (running [255]) = faultedAt .invalidOpcode 0 (some 0) (some 255) ∧
    runAfter { running [] with ip := 40000 } =
      faultedAt .addressOutOfRange 40000 (some 40000) none ∧
    runAfter { running [] with mem := [(32767, 19)], ip := 32767 } =
      faultedAt .addressOutOfRange 32767 (some 32768) none ∧
    runAfter { running [255] with cancel := true } = some .haltedCancelled ∧
    runAfter { running [20, 5] with cancel := true, phase := .waitIn } = some .haltedCancelled := by
  decide

/-- A core starts once; its result is taken once (R162, R168, R169). -/
theorem test_ports :
    runAfter { State.reset with schedule := [.start] } = some .running ∧
    stepped { running [] with schedule := [.start] } = none ∧
    stepped { State.reset with schedule := [.takeResult] } = none := by decide

/-- R164, R172: with the schedule used up an environment without end begins its next round, here one
that offers a byte first, or one in which the engine has its turn at once. -/
theorem test_environment_without_end :
    (∀ rest, laterRound 7 = .offer 65 :: rest →
      step { running [20, 32768] with later := some 7 } =
        .next { running [20, 32768] with later := some 8, schedule := rest, offered := [65] }) ∧
    (laterRound 7 = [.engine] →
      step { running [20, 32768] with later := some 7 } =
        .next { running [20, 32768] with later := some 8, phase := .waitIn }) :=
  ⟨fun rest h => (step_of_movesBy (.inr (.inr ⟨7, rest, rfl, rfl, h, rfl⟩))).trans rfl,
    fun h => (step_of_movesBy (.inr (.inr ⟨7, [], rfl, rfl, h, rfl⟩))).trans rfl⟩

/-- R161: a sink that is ready for the byte a waiting `out` presents waits for it. -/
theorem test_ready_sink_waits :
    (State.setSink { running [19, 65] with phase := .waitOut } false).sinkReady = true ∧
    (State.setSink (running [19, 65]) false).sinkReady = false := by decide

/-- An instruction given as a table number decodes, and runs first after reset. -/
theorem test_table_words :
    decodeTableWord 16 21 = some .nop ∧
    decodeTableWord 48 0x000580000001 = some (.set (.reg 0) (.lit 5)) ∧
    decodeTableWord 16 22 = none ∧
    regAfter (State.reset.withFetchWord 48 0x000580000001) 0 = some (5, 3) ∧
    runAfter (State.reset.withFetchWord 16 0) = some .haltedNormal := by decide

/-! ## Witnesses: for each statement with hypotheses, states and operands that meet them -/

/-- A running core at `ip` with 65535 in every register. -/
def edge (ip : Word) : State :=
  { State.reset with run := .running, ip := ip, regs := Vector.replicate 8 65535 }

/-- A fault record of `edge ip`. -/
def recordOf (code : FaultCode) (ip : Word) (addr value : Option Word) : Option FaultRecord :=
  some { code := code, ip := ip, addr := addr, value := value }

/-- Clause one at the highest address, with a register and a literal; clause two by the fetch of
`c`, by `b`, by `c` and by the target. -/
def ThreeOperandHypotheses : Prop :=
  ((edge 32764).ip.toNat + 3 ≤ 32767 ∧ (edge 32764).worth (.reg 7) = some 65535 ∧
    (edge 32764).worth (.lit 32767) = some 32767) ∧
  firstFault [(edge 32765).valueFault 2 (.lit 0), (edge 32765).valueFault 3 (.lit 0),
    (edge 32765).targetFault (.reg 0)] = recordOf .addressOutOfRange 32765 (some 32768) none ∧
  firstFault [(edge 0).valueFault 2 (.invalid 32776), (edge 0).valueFault 3 (.invalid 65535),
    (edge 0).targetFault (.lit 1)] = recordOf .invalidValue 0 (some 2) (some 32776) ∧
  firstFault [(edge 0).valueFault 2 (.lit 1), (edge 0).valueFault 3 (.invalid 65535),
    (edge 0).targetFault (.lit 1)] = recordOf .invalidValue 0 (some 3) (some 65535) ∧
  firstFault [(edge 32764).valueFault 2 (.lit 1), (edge 32764).valueFault 3 (.reg 0),
    (edge 32764).targetFault (.lit 32767)] = recordOf .notARegister 32764 (some 32765) (some 32767)

theorem three_operand_hypotheses : ThreeOperandHypotheses := by
  unfold ThreeOperandHypotheses; decide

theorem witness_EqWritesOneExactlyWhenEqual : ThreeOperandHypotheses := three_operand_hypotheses
theorem witness_GtWritesOneExactlyWhenGreater : ThreeOperandHypotheses := three_operand_hypotheses
theorem witness_AddWritesSumModulo32768 : ThreeOperandHypotheses := three_operand_hypotheses
theorem witness_MultWritesProductModulo32768 : ThreeOperandHypotheses := three_operand_hypotheses
theorem witness_AndWritesBitwiseAnd : ThreeOperandHypotheses := three_operand_hypotheses
theorem witness_OrWritesBitwiseOr : ThreeOperandHypotheses := three_operand_hypotheses

/-- As for three operands. -/
def TwoOperandHypotheses : Prop :=
  ((edge 32765).ip.toNat + 2 ≤ 32767 ∧ (edge 32765).worth (.reg 7) = some 65535) ∧
  firstFault [(edge 32766).valueFault 2 (.lit 0), (edge 32766).targetFault (.reg 0)] =
    recordOf .addressOutOfRange 32766 (some 32768) none ∧
  firstFault [(edge 0).valueFault 2 (.invalid 32776), (edge 0).targetFault (.lit 1)] =
    recordOf .invalidValue 0 (some 2) (some 32776) ∧
  firstFault [(edge 32765).valueFault 2 (.lit 1), (edge 32765).targetFault (.invalid 32776)] =
    recordOf .notARegister 32765 (some 32766) (some 32776)

theorem two_operand_hypotheses : TwoOperandHypotheses := by unfold TwoOperandHypotheses; decide

theorem witness_SetCopiesValueToRegister : TwoOperandHypotheses := two_operand_hypotheses
theorem witness_NotWritesFifteenBitComplement : TwoOperandHypotheses := two_operand_hypotheses

/-- Both values readable at the highest address; the faults of `a` and of `b`. -/
def ConditionalJumpHypotheses : Prop :=
  ((edge 32765).ip.toNat + 2 ≤ 32767 ∧ (edge 32765).worth (.reg 0) = some 65535 ∧
    (edge 32765).worth (.lit 0) = some 0) ∧
  firstFault [(edge 32767).valueFault 1 (.lit 0), (edge 32767).valueFault 2 (.lit 0)] =
    recordOf .addressOutOfRange 32767 (some 32768) none ∧
  firstFault [(edge 32765).valueFault 1 (.lit 0), (edge 32765).valueFault 2 (.invalid 32776)] =
    recordOf .invalidValue 32765 (some 32767) (some 32776)

theorem conditional_jump_hypotheses : ConditionalJumpHypotheses := by
  unfold ConditionalJumpHypotheses; decide

theorem witness_JtJumpsExactlyWhenNonZero : ConditionalJumpHypotheses := conditional_jump_hypotheses
theorem witness_JfJumpsExactlyWhenZero : ConditionalJumpHypotheses := conditional_jump_hypotheses

theorem witness_SampleWordsOfEachFamilyDecode :
    (32767 : Word).toNat ≤ 32767 ∧
    (32768 ≤ (32768 : Word).toNat ∧ (32768 : Word).toNat ≤ 32775) ∧
    (32768 ≤ (32775 : Word).toNat ∧ (32775 : Word).toNat ≤ 32775) ∧
    32776 ≤ (32776 : Word).toNat := by decide

theorem witness_DecodeOfEncodeGivesTheInstructionBack :
    Instr.wf (.add (.reg 7) (.lit 32767) (.invalid 32776)) = true := by decide

theorem witness_EncodeOfDecodeGivesTheWordsBack :
    decode [9, 32775, 32776, 65535, 3] =
      .ok (.add (.reg 7) (.invalid 32776) (.invalid 65535), [3]) := by decide

theorem witness_PushAppendsValueToStack :
    ((edge 32766).ip.toNat + 1 ≤ 32767 ∧ (edge 32766).worth (.reg 0) = some 65535 ∧
      State.overflowFault { edge 32766 with stack := [1], stackCap := some 2 } = none) ∧
    firstFault [(edge 32767).valueFault 1 (.lit 0), (edge 32767).overflowFault] =
      recordOf .addressOutOfRange 32767 (some 32768) none ∧
    firstFault [(edge 0).valueFault 1 (.lit 0),
      State.overflowFault { edge 0 with stack := [1, 2], stackCap := some 2 }] =
      recordOf .stackOverflow 0 none none := by decide

theorem witness_CallPushesReturnAddressAndJumps :
    ((edge 32766).ip.toNat + 1 ≤ 32767 ∧ (edge 32766).worth (.lit 32767) = some 32767 ∧
      (edge 32766).overflowFault = none) ∧
    firstFault [(edge 0).valueFault 1 (.invalid 32776), (edge 0).overflowFault] =
      recordOf .invalidValue 0 (some 1) (some 32776) ∧
    firstFault [(edge 0).valueFault 1 (.lit 0), State.overflowFault { edge 0 with stackCap := some 0 }] =
      recordOf .stackOverflow 0 none none := by decide

theorem witness_PopMovesTopEntryToRegister :
    ((edge 32766).ip.toNat + 1 ≤ 32767 ∧
      State.stack { edge 32766 with stack := [65535] } = [] ++ [65535]) ∧
    firstFault [(edge 0).underflowFault, (edge 0).targetFault (.lit 5)] =
      recordOf .stackUnderflow 0 none none ∧
    firstFault [State.underflowFault { edge 32767 with stack := [9] },
      State.targetFault { edge 32767 with stack := [9] } (.reg 0)] =
      recordOf .addressOutOfRange 32767 (some 32768) none := by decide

theorem witness_JmpSetsIpToValue :
    ((edge 32766).ip.toNat + 1 ≤ 32767 ∧ (edge 32766).worth (.reg 7) = some 65535) ∧
    (edge 32767).valueFault 1 (.lit 0) = recordOf .addressOutOfRange 32767 (some 32768) none ∧
    (edge 0).valueFault 1 (.invalid 32776) = recordOf .invalidValue 0 (some 1) (some 32776) := by decide

theorem witness_ModWritesRemainderOrFaultsOnZero :
    ((edge 32764).ip.toNat + 3 ≤ 32767 ∧ (edge 32764).worth (.reg 7) = some 65535 ∧
      (edge 32764).worth (.lit 1) = some 1 ∧ (1 : Word) ≠ 0) ∧
    firstFault [(edge 32764).valueFault 2 (.lit 7), (edge 32764).valueFault 3 (.lit 0),
      (edge 32764).divisorFault (.lit 0), (edge 32764).targetFault (.lit 3)] =
      recordOf .divisionByZero 32764 (some 32767) (some 0) ∧
    firstFault [(edge 0).valueFault 2 (.lit 7), (edge 0).valueFault 3 (.lit 1),
      (edge 0).divisorFault (.lit 1), (edge 0).targetFault (.lit 3)] =
      recordOf .notARegister 0 (some 1) (some 3) := by decide

theorem witness_RmemLoadsRawWord :
    ((edge 32765).ip.toNat + 2 ≤ 32767 ∧ (edge 32765).worth (.lit 32767) = some 32767 ∧
      (32767 : Word).toNat ≤ 32767) ∧
    firstFault [(edge 0).valueFault 2 (.reg 0), (edge 0).addressFault (.reg 0),
      (edge 0).targetFault (.lit 3)] = recordOf .addressOutOfRange 0 (some 65535) none ∧
    firstFault [(edge 0).valueFault 2 (.lit 32767), (edge 0).addressFault (.lit 32767),
      (edge 0).targetFault (.lit 3)] = recordOf .notARegister 0 (some 1) (some 3) := by decide

theorem witness_WmemStoresRawWord :
    ((edge 32765).ip.toNat + 2 ≤ 32767 ∧ (edge 32765).worth (.lit 32767) = some 32767 ∧
      (edge 32765).worth (.reg 0) = some 65535 ∧ (32767 : Word).toNat ≤ 32767 ∧
      (edge 32765).mem.wf = true) ∧
    firstFault [(edge 32766).valueFault 1 (.reg 0), (edge 32766).valueFault 2 (.lit 0),
      (edge 32766).addressFault (.reg 0)] = recordOf .addressOutOfRange 32766 (some 32768) none ∧
    firstFault [(edge 32765).valueFault 1 (.reg 0), (edge 32765).valueFault 2 (.lit 0),
      (edge 32765).addressFault (.reg 0)] = recordOf .addressOutOfRange 32765 (some 65535) none := by
  decide

theorem witness_RetPopsIpOrHaltsNormally :
    State.stack { edge 32767 with stack := [8, 65535] } = [8] ++ [65535] ∧
    (edge 32767).stack = [] := by decide

theorem witness_OutEmitsLowByteOrWaits :
    ((edge 32766).ip.toNat + 1 ≤ 32767 ∧ (edge 32766).worth (.reg 0) = some 65535 ∧
      (edge 32766).sinkReady = true ∧ State.sinkReady { edge 0 with sinkReady := false } = false) ∧
    (edge 32767).valueFault 1 (.lit 0) = recordOf .addressOutOfRange 32767 (some 32768) none := by decide

/-- `edge ip` with bytes on offer and the latch as given. -/
def inputEdge (ip : Word) (offered : List Byte) (cancel : Bool) : State :=
  { edge ip with offered := offered, cancel := cancel }

theorem witness_InTakesByteOrWaitsOrIsCancelled :
    ((inputEdge 32766 [255] false).ip.toNat + 1 ≤ 32767 ∧
      (inputEdge 32766 [255] false).offered = 255 :: [] ∧
      (inputEdge 32766 [255] false).cancel = false) ∧
    (inputEdge 32767 [255] false).targetFault (.reg 0) =
      recordOf .addressOutOfRange 32767 (some 32768) none ∧
    ((inputEdge 0 [] true).offered = [] ∧ (inputEdge 0 [] true).cancel = true) ∧
    ((inputEdge 0 [] false).offered = [] ∧ (inputEdge 0 [] false).cancel = false) := by decide

theorem witness_InWithByteAndCancelDoesEither :
    ((inputEdge 32766 [255] true).offered = 255 :: [] ∧ (inputEdge 32766 [255] true).cancel = true ∧
      (inputEdge 32766 [255] true).ip.toNat + 1 ≤ 32767) ∧
    (inputEdge 32766 [255] true).targetFault (.lit 5) =
      recordOf .notARegister 32766 (some 32767) (some 5) := by decide

/-- A running core at address 32767 over the opcode word `w`, with moves still to come. -/
def top (w : Word) (moves : List Event := []) : State :=
  { edge 32767 with mem := [(32767, w)], schedule := moves }

/-- With nothing more to come the engine moves. -/
theorem engine_last {s : State} (hs : s.schedule = [] := by rfl) (hl : s.later = none := by rfl) :
    s.EngineMoves s := .inr (.inl ⟨hs, hl, rfl, rfl⟩)

theorem engine_first : (top 21 [.engine, .start]).EngineMoves (top 21 [.start]) :=
  .inl ⟨[.start], rfl, rfl⟩

theorem witness_StepRunsTheDecodedInstruction :
    ((top 21).EngineMoves (top 21) ∧ (top 21).Fetches ∧ (top 21).ip.toNat ≤ 32767 ∧
      decode (top 21).window = .ok (.nop, [0, 0, 0])) ∧
    (top 21 [.engine, .start]).EngineMoves (top 21 [.start]) :=
  ⟨⟨engine_last, ⟨rfl, fun _ => rfl⟩, by decide, by decide⟩, engine_first⟩

theorem witness_OpcodeFetchAboveTopFaults :
    (edge 32768).EngineMoves (edge 32768) ∧ (edge 32768).Fetches ∧ 32767 < (edge 32768).ip.toNat :=
  ⟨engine_last, ⟨rfl, fun _ => rfl⟩, by decide⟩

theorem witness_OpcodeAboveTwentyOneFaults :
    (top 22).EngineMoves (top 22) ∧ (top 22).Fetches ∧ (top 22).ip.toNat ≤ 32767 ∧
    22 ≤ ((top 22).mem.get (top 22).ip.toNat).toNat :=
  ⟨engine_last, ⟨rfl, fun _ => rfl⟩, by decide, by decide⟩

theorem witness_RaisedLatchEndsRunAtTopOfCycle :
    State.EngineMoves (inputEdge 65535 [] true) (inputEdge 65535 [] true) ∧
    (inputEdge 65535 [] true).run = .running ∧ (inputEdge 65535 [] true).phase = .top ∧
    (inputEdge 65535 [] true).cancel = true :=
  ⟨engine_last, rfl, rfl, rfl⟩

/-- A core waiting in an `in` at the last address. -/
def waitingIn (cancel : Bool) : State := { top 20 with phase := .waitIn, cancel := cancel }

/-- A core waiting in an `out` at the last two addresses. -/
def waitingOut : State :=
  { edge 32766 with mem := [(32766, 19)], phase := .waitOut, sinkReady := false, cancel := true }

theorem waitingIn_inv (c : Bool) : (waitingIn c).Inv :=
  ⟨rfl, rfl, rfl, nofun, nofun, fun _ => ⟨rfl, Nat.le_refl 32767, rfl⟩, nofun, nofun⟩

theorem waitingOut_inv : waitingOut.Inv :=
  ⟨rfl, rfl, rfl, nofun, nofun, nofun, fun _ => ⟨rfl, by decide, rfl, by decide⟩, nofun⟩

theorem witness_RaisedLatchEndsBlockedIn :
    (waitingIn true).Inv ∧ (waitingIn true).EngineMoves (waitingIn true) ∧
    (waitingIn true).phase = .waitIn ∧ (waitingIn true).offered = [] ∧
    (waitingIn true).cancel = true :=
  ⟨waitingIn_inv true, engine_last, rfl, rfl, rfl⟩

/-- `waitingOut` with the sink ready, its withdrawal and an endless environment to come. -/
def acceptedOut : State :=
  { waitingOut with sinkReady := true, schedule := [.sink false, .offer 1], later := some 0 }

theorem witness_progress_of_the_engine :
    (acceptedOut.Inv ∧ acceptedOut.run = .running ∧ Event.start ∉ acceptedOut.schedule ∧
      acceptedOut.CanGoOn) ∧
    ((waitingIn true).CanGoOn ∧ (top 21).CanGoOn ∧ (inputEdge 65535 [] true).CanGoOn) :=
  ⟨⟨⟨rfl, rfl, rfl, nofun, nofun, nofun, fun _ => ⟨rfl, by decide, rfl, by decide⟩, nofun⟩, rfl,
      by decide, rfl⟩,
    .inr rfl, .inr (by decide), .inl rfl⟩

theorem witness_WaitChangesNoStateHoweverLong :
    (waitingOut.Inv ∧ waitingOut.schedule = [] ∧ waitingOut.later = none ∧ waitingOut.phase = .waitOut ∧
      waitingOut.sinkReady = false) ∧
    ((waitingIn false).Inv ∧ (waitingIn false).schedule = [] ∧ (waitingIn false).later = none ∧
      (waitingIn false).phase = .waitIn ∧ (waitingIn false).offered = [] ∧ (waitingIn false).cancel = false) :=
  ⟨⟨waitingOut_inv, rfl, rfl, rfl, rfl⟩, waitingIn_inv false, rfl, rfl, rfl, rfl, rfl⟩

theorem witness_WordsPastTheTopAreNeverUsed :
    decodeOp 9 32768 1 7 = some (.add (.reg 0) (.lit 1) (.lit 7)) ∧
    decodeOp 9 32768 1 65535 = some (.add (.reg 0) (.lit 1) (.invalid 65535)) ∧
    ¬ (edge 32765).ip.toNat + 3 ≤ 32767 := by decide

theorem witness_StartBeginsAnIdleCoreOnce :
    (State.MovesBy { State.reset with schedule := [.start] } .start State.reset ∧
      State.reset.run = .idle) ∧
    ((top 0 [.start]).MovesBy .start (top 0) ∧ (top 0 [.start]).run ≠ .idle) :=
  ⟨⟨.inl ⟨_, rfl, rfl⟩, rfl⟩, .inl ⟨_, rfl, rfl⟩, by decide⟩

theorem witness_OutsideMovesWriteOneFieldEach :
    (top 0 [.requestHalt]).MovesBy .requestHalt (top 0) ∧
    (top 0 [.offer 255]).MovesBy (.offer 255) (top 0) ∧
    (top 0 [.sink false]).MovesBy (.sink false) (top 0) :=
  ⟨.inl ⟨_, rfl, rfl⟩, .inl ⟨_, rfl, rfl⟩, .inl ⟨_, rfl, rfl⟩⟩

/-- Whatever the round of an environment without end is, its first move is made, and the others and a
turn of the engine follow. -/
theorem witness_environment_without_end (s : State) (n : Nat) (hs : s.schedule = [])
    (hl : s.later = some n) : ∃ e rest, laterRound n = e :: rest ∧
      s.MovesBy e { s with schedule := rest, later := some (n + 1) } := by
  obtain ⟨e, rest, h⟩ := List.exists_cons_of_ne_nil (l := laterRound n) (by simp [laterRound])
  exact ⟨e, rest, h, .inr (.inr ⟨n, rest, hs, hl, h, rfl⟩)⟩

/-- A core whose run has ended at the last address, the controller about to take the result. -/
def ended (taken : Bool) : State :=
  { (top 0 [.takeResult]).endedNormally with resultTaken := taken }

theorem witness_ResultIsTakenAtMostOnce :
    (State.MovesBy { State.reset with schedule := [.takeResult] } .takeResult State.reset ∧
      State.reset.run = .idle) ∧
    ((ended true).MovesBy .takeResult { ended true with schedule := [] } ∧ (ended true).run ≠ .idle ∧
      (ended true).resultTaken = true) ∧
    ((ended false).MovesBy .takeResult { ended false with schedule := [] } ∧
      (ended false).run ≠ .idle ∧ (ended false).resultTaken = false ∧
      (ended false).result = some .success) ∧
    ((top 0 [.takeResult]).MovesBy .takeResult (top 0) ∧ (top 0 [.takeResult]).run ≠ .idle ∧
      (top 0 [.takeResult]).resultTaken = false ∧ (top 0 [.takeResult]).result = none) :=
  ⟨⟨.inl ⟨_, rfl, rfl⟩, rfl⟩, ⟨.inl ⟨_, rfl, rfl⟩, by decide, rfl⟩,
    ⟨.inl ⟨_, rfl, rfl⟩, by decide, rfl, rfl⟩, .inl ⟨_, rfl, rfl⟩, by decide, rfl, rfl⟩

theorem witness_MemoryReadsWhatWasLastWritten :
    Memory.wf [(0, 1), (32767, 65535)] = true := by decide

theorem witness_MemoryWriteKeepsCanonicalForm :
    Memory.wf [(0, 1), (32766, 65535)] = true ∧ 32767 ≤ 32767 := by decide

theorem witness_CanonicalMemoriesWithEqualWordsAreEqual :
    Memory.wf [(0, 1), (32767, 65535)] = true ∧ Memory.wf (Memory.set [(32767, 65535)] 0 1) = true ∧
    ∀ a, a ≤ 32767 →
      Memory.get [(0, 1), (32767, 65535)] a = Memory.get (Memory.set [(32767, 65535)] 0 1) a :=
  ⟨by decide, by decide, fun _ _ => rfl⟩

theorem witness_ConstructionLoadsImageThenZeros :
    (List.replicate 32768 (0 : Word)).length ≤ 32768 ∧
    32768 < (List.replicate 32769 (0 : Word)).length := by
  simp only [List.length_replicate]; omega

theorem witness_ImageBytesAreLittleEndianWords : 0 < [(0x8005 : Word)].length := by decide

theorem witness_InvariantHoldsAfterConstruction :
    ∃ s, State.ofImage (some 0) [20, 32768] = .next s ∧ s.mem = [(0, 20), (1, 32768)] :=
  ⟨_, rfl, rfl⟩

theorem top_inv (w : Word) (h : Memory.wf [(32767, w)] = true) (moves : List Event) : (top w moves).Inv :=
  ⟨h, rfl, rfl, nofun, nofun, nofun,
    nofun, nofun⟩

theorem witness_EveryStepKeepsTheInvariant :
    (top 20).Inv ∧ ∃ t, step (top 20) = .next t ∧ t.phase = .waitIn :=
  ⟨top_inv 20 rfl [], _, rfl, rfl⟩

theorem witness_RunStatusOnlyMovesForward :
    (∃ t, step { State.reset with schedule := [.start] } = .next t ∧ t.run = .running) ∧
    ∃ t, step (top 18) = .next t ∧ t.run = .haltedNormal :=
  ⟨⟨_, rfl, rfl⟩, _, rfl, rfl⟩

theorem witness_HaltedCoreIsInert :
    (ended false).run.halted = true ∧ ∃ t, step (ended false) = .next t ∧ t.resultTaken = true :=
  ⟨rfl, _, rfl, rfl⟩

theorem witness_OnlyRequestHaltChangesTheLatch :
    (∃ t, step (top 21 [.requestHalt]) = .next t ∧ t.cancel = true) ∧
    ∃ t, step (top 21) = .next t ∧ t.cancel = false :=
  ⟨⟨_, rfl, rfl⟩, _, rfl, rfl⟩

theorem witness_ResultIsPublishedOnceWhenTheRunEnds :
    ((top 18).Inv ∧ (top 18).result = none ∧
      ∃ t, step (top 18) = .next t ∧ t.result = some .success) ∧
    ((State.endedNormally (top 18 [.takeResult])).Inv ∧
      (State.endedNormally (top 18 [.takeResult])).result = some .success ∧
      ∃ t, step (State.endedNormally (top 18 [.takeResult])) = .next t) :=
  ⟨⟨top_inv 18 rfl [], rfl, _, rfl, rfl⟩,
    ⟨rfl, rfl, rfl, nofun, nofun, nofun, nofun, nofun⟩, rfl, _, rfl⟩

theorem witness_RegistersChangeOnlyAtTheTarget :
    (∃ t, exec (.set (.reg 7) (.lit 1)) (edge 0) = .next t ∧ t.regs[(7 : RegIdx)] = 1) ∧
    Instr.target? (.set (.reg 7) (.lit 1)) ≠ some (.reg 6) ∧
    Instr.target? (.wmem (.reg 7) (.lit 1)) ≠ some (.reg 7) ∧
    (∃ t, exec (.add (.reg 7) (.reg 6) (.lit 2)) (edge 0) = .next t ∧ t.regs[(7 : RegIdx)] = 1) ∧
    (OperandKind.value, Operand.reg 7) ∉ Instr.shape (.add (.reg 7) (.reg 6) (.lit 2)) :=
  ⟨⟨_, rfl, rfl⟩, by decide, by decide, ⟨_, rfl, rfl⟩, by decide⟩

theorem witness_MemoryChangesOnlyAtTheWmemAddress :
    (edge 0).mem.wf = true ∧
    ((∃ t, exec .nop (edge 0) = .next t) ∧ ∀ a b, Instr.nop ≠ .wmem a b) ∧
    ((∃ t, exec (.wmem (.lit 32767) (.lit 1)) (edge 0) = .next t ∧ t.mem = [(32767, 1)]) ∧
      ∀ x : Word, (edge 0).worth (.lit 32767) = some x → 32766 ≠ x.toNat) :=
  ⟨rfl, ⟨⟨_, rfl⟩, nofun⟩, ⟨_, rfl, rfl⟩, fun x h => by cases h; decide⟩

theorem witness_StackChangesOnlyAtTheTop :
    (∃ t, exec (.call (.lit 0)) (edge 32766) = .next t ∧ t.stack = [32768]) ∧
    (∃ t, exec .ret { edge 0 with stack := [65535] } = .next t ∧ t.stack = []) ∧
    ∃ t, exec .nop (edge 0) = .next t ∧ t.stack = [] :=
  ⟨⟨_, rfl, rfl⟩, ⟨_, rfl, rfl⟩, _, rfl, rfl⟩

theorem witness_ChannelsChangeOnlyByInAndOut :
    (∃ t, exec (.out (.reg 0)) (edge 32766) = .next t ∧ t.outTrace = [255]) ∧
    ∃ t, exec (.inp (.reg 0)) (inputEdge 32766 [255] false) = .next t ∧ t.taken = 1 :=
  ⟨⟨_, rfl, rfl⟩, _, rfl, rfl⟩

theorem witness_ControlStateChangesOnlyAtTheEndOfTheRun :
    (∃ t, exec .halt (edge 32767) = .next t ∧ t.run = .haltedNormal) ∧
    ∃ t, exec .nop (edge 32767) = .next t ∧ t.run = .running :=
  ⟨⟨_, rfl, rfl⟩, _, rfl, rfl⟩

theorem witness_FifteenBitValuesAreClosed :
    State.Val15 (running [] 32767) ∧
    (∀ a b, Instr.call (.reg 0) ≠ .rmem a b) ∧
    (∀ a, Instr.call (.reg 0) = .call a → (running [] 32767).ip.toNat ≠ 32766) ∧
    ∃ t, exec (.call (.reg 0)) (running [] 32767) = .next t ∧ t.stack = [2] :=
  ⟨⟨by decide, nofun⟩, nofun, fun _ _ => by decide, _, rfl, rfl⟩

theorem witness_LegalOperandsNeverFault :
    (Instr.legal (.pop (.reg 0)) = true ∧
      (edge 32766).ip.toNat + Instr.length (.pop (.reg 0)) ≤ 32768 ∧ (edge 32766).run = .running ∧
      ∃ t f, exec (.pop (.reg 0)) (edge 32766) = .next t ∧ t.run = .haltedFaulted f) ∧
    (Instr.legal (.rmem (.reg 0) (.reg 1)) = true ∧
      (edge 32765).ip.toNat + Instr.length (.rmem (.reg 0) (.reg 1)) ≤ 32768 ∧
      ∃ t f, exec (.rmem (.reg 0) (.reg 1)) (edge 32765) = .next t ∧ t.run = .haltedFaulted f ∧
        f.code = .addressOutOfRange) :=
  ⟨⟨rfl, by decide, rfl, _, _, rfl, rfl⟩, rfl, by decide, _, _, rfl, rfl, rfl⟩

theorem witness_OnlyInObservesTheCancelLatch :
    (∀ a, Instr.out (.reg 0) ≠ .inp a) ∧
    ∃ t, exec (.out (.reg 0)) (inputEdge 32766 [] true) = .next t ∧ t.outTrace = [255] :=
  ⟨nofun, _, rfl, rfl⟩

theorem witness_FaultsArePrecise :
    (top 3).run = .running ∧
    ∃ t f, step (top 3) = .next t ∧ t.run = .haltedFaulted f ∧ f.code = .stackUnderflow :=
  ⟨rfl, _, _, rfl, rfl, rfl⟩

theorem test_out_is_the_only_growth :
    (stepped waitingOut).map State.outTrace = some [] ∧
    (stepped { waitingOut with sinkReady := true }).map State.outTrace = some [0] := by decide

theorem witness_OutputOnlyGrowsUntilItIsClosed :
    ((top 21).Inv ∧ ∃ t, step (top 21) = .next t) ∧
    ((State.endedNormally (top 18)).Inv ∧ (State.endedNormally (top 18)).outClosed = true ∧
      ∃ t, step (State.endedNormally (top 18)) = .next t) :=
  ⟨⟨top_inv 21 rfl [], _, rfl⟩,
    ⟨rfl, rfl, rfl, nofun, nofun, nofun, nofun, nofun⟩, rfl, _, rfl⟩

end Sys2Proof.Tests
end

section
/-! SUPPORT. Faults are precise (60_exceptions.md R190, 00_scope.md R10): the shape of a faulted state,
read off `Effect`, `Turn` and `Move` in turn. -/

namespace Sys2Proof.Machine

/-- `t` is what `s` becomes when its instruction faults with the record `f` (R190): the run ends, and of
the rest only the input (an `in` keeps the byte it took, R152) and the moves still to come may differ. -/
def State.AbortedBy (s : State) (f : FaultRecord) (t : State) : Prop :=
  f.ip = s.ip ∧ ∃ offered taken ties schedule later,
    t = ({ s with offered, taken, ties, schedule, later } : State).faulted f

theorem abortedBy_faulted {s : State} {f : FaultRecord} (hf : f.ip = s.ip) :
    s.AbortedBy f (s.faulted f) :=
  ⟨hf, s.offered, s.taken, s.ties, s.schedule, s.later, rfl⟩

/-- The moves still to come have no part in a fault. -/
theorem State.AbortedBy.of_moves {s t : State} {f : FaultRecord} {rest : List Event} {n : Option Nat}
    (h : ({ s with schedule := rest, later := n } : State).AbortedBy f t) : s.AbortedBy f t := h

theorem run_ne_faulted {s : State} (hr : s.run = .running) (f : FaultRecord) :
    s.run ≠ .haltedFaulted f := by
  rw [hr]
  exact nofun

/-- Only the two faulting effects of an instruction leave a faulted run. -/
theorem Effect.abortedBy {i : Instr} {s t : State} {f : FaultRecord} (h : Effect i s t)
    (hr : s.run = .running) (ht : t.run = .haltedFaulted f) : s.AbortedBy f t := by
  cases h with
  | fault f' hf =>
    cases ht
    exact abortedBy_faulted hf
  | receivedFault a b rest k f' _ _ hf =>
    cases ht
    exact ⟨hf, rest, s.taken + 1, k, s.schedule, s.later, rfl⟩
  | halted | cancelled => cases ht
  | moved | wrote | popped | pushed | returned | stored | emitted | waitsOut | waitsIn | received =>
    exact absurd ht (run_ne_faulted hr f)

theorem Turn.abortedBy {s t : State} {f : FaultRecord} (h : Turn s t) (hr : s.run = .running)
    (ht : t.run = .haltedFaulted f) : s.AbortedBy f t := by
  cases h with
  | still hs => exact absurd hr hs
  | cancelledAtTop => cases ht
  | fetchFault f' _ hf =>
    cases ht
    exact abortedBy_faulted hf
  | ran i _ _ _ _ he => exact (effect_of_exec he).abortedBy hr ht

/-- A running core faults at the engine's turn only: every other move leaves it running. -/
theorem Move.abortedBy {s t0 t : State} {f : FaultRecord} (h : Move s t0 t) (hr : s.run = .running)
    (ht : t.run = .haltedFaulted f) : s.AbortedBy f t := by
  obtain ⟨rest, n, rfl⟩ := h.frame
  cases h with
  | turn _ _ hturn => exact State.AbortedBy.of_moves (hturn.abortedBy hr ht)
  | started => cases ht
  | latched | tookResult | offered | sinkSet => exact absurd ht (run_ne_faulted hr f)

end Sys2Proof.Machine

open Sys2Proof.Machine

/-- Settles O59: a step that faults leaves the state of `State.AbortedBy`, in which every field the
statement names can be read off. -/
theorem faultsArePrecise : Obligations.FaultsArePrecise := by
  intro s t f hr hstep ht
  obtain ⟨t0, hm⟩ := step_move hstep
  obtain ⟨hip, _, _, _, _, _, rfl⟩ := hm.abortedBy hr ht
  exact ⟨rfl, rfl, rfl, rfl, rfl, hip, rfl, rfl⟩
end

section
/-! SUPPORT. Reset, and the frames of one instruction (10_state.md R22, R24, R27, R34): what it can do to
the registers, the stack, the control state and the place in the cycle, each read off `Effect`. -/

namespace Sys2Proof.Machine

variable {i : Instr} {s t : State}

/-- Control state under an engine's turn: what only the outside agents write is kept, and run status,
result and closure change together, at the end of the run and with `ip` unchanged, or not at all. -/
structure State.ControlKept (s t : State) : Prop where
  cancel : t.cancel = s.cancel
  resultTaken : t.resultTaken = s.resultTaken
  sinkReady : t.sinkReady = s.sinkReady
  stackCap : t.stackCap = s.stackCap
  schedule : t.schedule = s.schedule
  later : t.later = s.later
  ending : (t.run = s.run ∧ t.result = s.result ∧ t.outClosed = s.outClosed) ∨
    (t.run.halted = true ∧ t.result = t.run.result ∧ t.outClosed = true ∧ t.ip = s.ip)

theorem Effect.controlKept (h : Effect i s t) : s.ControlKept t := by
  cases h with
  | fault | halted | cancelled | receivedFault =>
    exact ⟨rfl, rfl, rfl, rfl, rfl, rfl, .inr ⟨rfl, rfl, rfl, rfl⟩⟩
  | moved | wrote | popped | pushed | returned | stored | emitted | waitsOut | waitsIn | received =>
    exact ⟨rfl, rfl, rfl, rfl, rfl, rfl, .inl ⟨rfl, rfl, rfl⟩⟩

/-- The stack stays, or gains one entry on top, for which there was room, or loses the top one. -/
theorem Effect.stack_cases (h : Effect i s t) :
    t.stack = s.stack ∨
    (∃ v, t.stack = s.stack ++ [v] ∧ s.stackFull = false ∧
      ((∃ a, i = .push a) ∨ ∃ a, i = .call a)) ∨
    (∃ v, s.stack = t.stack ++ [v] ∧ ((∃ a, i = .pop a) ∨ i = .ret)) := by
  cases h with
  | pushed v n hi hs =>
    refine .inr (.inl ⟨v, rfl, hs, ?_⟩)
    obtain ⟨a, ha, -⟩ | ⟨ha, -⟩ := hi
    · exact .inl ⟨a, ha⟩
    · exact .inr ha
  | popped r v n rest hi hs => exact .inr (.inr ⟨v, hs, .inl ⟨_, hi⟩⟩)
  | returned v rest hi hs => exact .inr (.inr ⟨v, hs, .inr hi⟩)
  | fault | halted | moved | wrote | stored | emitted | waitsOut | waitsIn | cancelled | received
  | receivedFault => exact .inl rfl

theorem length_lt_of_not_stackFull {n : Nat} (h : s.stackFull = false) (hn : s.stackCap = some n) :
    s.stack.length < n := by
  simpa [State.stackFull, hn] using h

theorem Effect.stackBounded (h : Effect i s t)
    (hs : ∀ n, s.stackCap = some n → s.stack.length ≤ n) :
    ∀ n, t.stackCap = some n → t.stack.length ≤ n := by
  intro n hn
  rw [h.controlKept.stackCap] at hn
  have hle := hs n hn
  obtain he | ⟨v, he, hfull, -⟩ | ⟨v, he, -⟩ := h.stack_cases
  · rwa [he]
  · rw [he, List.length_append, List.length_singleton]
    exact length_lt_of_not_stackFull hfull hn
  · rw [he, List.length_append] at hle
    omega

/-- Only `wmem` writes memory, at an address of the machine, so the canonical form is kept. -/
theorem Effect.mem_wf (h : Effect i s t) (hs : s.mem.wf = true) : t.mem.wf = true := by
  cases h with
  | stored a b addr w n _ _ _ hr => exact Memory.set_wfFrom hs (Nat.zero_le _) (Nat.lt_succ_of_le hr)
  | fault | halted | moved | wrote | popped | pushed | returned | emitted | waitsOut | waitsIn
  | cancelled | received | receivedFault => exact hs

/-- Only a waiting `in` and a waiting `out` end a turn inside an instruction (46_system_io.md R154). -/
theorem Effect.phase_cases (h : Effect i s t) :
    t.phase = .top ∨
    (t = s.wait .waitIn ∧ ∃ a, i = .inp a) ∨
    (t = s.wait .waitOut ∧ ∃ a v, i = .out a ∧ s.ip.toNat + 1 ≤ 32767 ∧ s.worth a = some v) := by
  cases h with
  | waitsIn a hi => exact .inr (.inl ⟨rfl, a, hi⟩)
  | waitsOut a v hi hp ha => exact .inr (.inr ⟨rfl, a, v, hi, hp, ha⟩)
  | fault | halted | moved | wrote | popped | pushed | returned | stored | emitted | cancelled
  | received | receivedFault => exact .inl rfl

/-- Only an accepted `out` adds to the output, the low byte of its value. -/
theorem Effect.outTrace_cases (h : Effect i s t) :
    t.outTrace = s.outTrace ∨
    ∃ a v, i = .out a ∧ s.worth a = some v ∧ s.sinkReady = true ∧
      t.outTrace = s.outTrace ++ [v.setWidth 8] := by
  cases h with
  | emitted a v n hi ha hs => exact .inr ⟨a, v, hi, ha, hs, rfl⟩
  | fault | halted | moved | wrote | popped | pushed | returned | stored | waitsOut | waitsIn
  | cancelled | received | receivedFault => exact .inl rfl

theorem setReg_regs_get (s : State) (r q : RegIdx) (v : Word) :
    (s.setReg r v).regs[q] = if q = r then v else s.regs[q] := by
  by_cases h : q = r
  · subst h
    rw [if_pos rfl]
    exact reg_setReg_self q v
  · rw [if_neg h]
    exact reg_setReg_other h v

theorem setReg_regs_get_of_ne {r q : RegIdx} (h : q ≠ r) (v : Word) :
    (s.setReg r v).regs[q] = s.regs[q] := reg_setReg_other h v

/-- A register that is not the target operand is not written. -/
theorem Effect.regs_get (h : Effect i s t) {q : RegIdx} (hq : i.target? ≠ some (.reg q)) :
    t.regs[q] = s.regs[q] := by
  have hne {r : RegIdx} (hr : i.target? = some (.reg r)) : q ≠ r := fun e => hq (e ▸ hr)
  cases h with
  | wrote r v n hi => exact setReg_regs_get_of_ne (hne hi) v
  | popped r v n rest hi => exact setReg_regs_get_of_ne (hne (hi ▸ rfl)) v
  | received r b rest k n hi => exact setReg_regs_get_of_ne (hne (hi ▸ rfl)) _
  | fault | halted | moved | pushed | returned | stored | emitted | waitsOut | waitsIn | cancelled
  | receivedFault => rfl

theorem State.Val15.setReg (hs : s.Val15) (r : RegIdx) {v : Word} (hv : v.toNat ≤ 32767) :
    (s.setReg r v).Val15 := by
  refine ⟨fun q => ?_, hs.2⟩
  rw [setReg_regs_get]
  split
  · exact hv
  · exact hs.1 q

theorem State.Val15.setStack (hs : s.Val15) {st : List Word} (h : ∀ w ∈ st, w.toNat ≤ 32767) :
    ({ s with stack := st } : State).Val15 := ⟨hs.1, h⟩

theorem State.Val15.pushWord (hs : s.Val15) {v : Word} (hv : v.toNat ≤ 32767) :
    (s.pushWord v).Val15 :=
  hs.setStack fun w hw => (List.mem_append.mp hw).elim (hs.2 w) fun h =>
    List.mem_singleton.mp h ▸ hv

/-- The entries of a stack of 15-bit words, the top one and those below it. -/
theorem State.Val15.top_below (hs : s.Val15) {rest : List Word} {v : Word}
    (h : s.stack = rest ++ [v]) : v.toNat ≤ 32767 ∧ ∀ w ∈ rest, w.toNat ≤ 32767 :=
  ⟨hs.2 v (by simp [h]), fun w hw => hs.2 w (by simp [h, hw])⟩

/-- R34: only a word read from memory and the return address of a `call` at 32766 can be above 32767. -/
theorem Effect.val15 (h : Effect i s t) (hs : s.Val15) (hrmem : ∀ a b, i ≠ .rmem a b)
    (hcall : ∀ a, i = .call a → s.ip.toNat ≠ 32766) : t.Val15 := by
  cases h with
  | wrote r v n _ hv =>
    obtain ⟨a, b, hi⟩ | hv := hv
    · exact absurd hi (hrmem a b)
    · exact hs.setReg r (hv hs)
  | popped r v n rest _ hst =>
    obtain ⟨hv, hrest⟩ := hs.top_below hst
    exact (hs.setReg r hv).setStack hrest
  | pushed v n hi =>
    obtain ⟨a, -, ha⟩ | ⟨⟨a, ha⟩, rfl, hp⟩ := hi
    · exact hs.pushWord (worth_le hs ha)
    · have hne := hcall a ha
      exact hs.pushWord (by bv_omega)
  | returned v rest _ hst => exact hs.setStack (hs.top_below hst).2
  | received r b rest k n _ _ =>
    exact State.Val15.setReg (s := s) hs r (by bv_omega)
  | fault | halted | moved | stored | emitted | waitsOut | waitsIn | cancelled | receivedFault =>
    exact hs

end Sys2Proof.Machine

open Sys2Proof Sys2Proof.Machine

/-- Settles O43: the reset state is a literal; its registers are a replicated zero. -/
theorem resetLeavesTheStatedValues : Obligations.ResetLeavesTheStatedValues :=
  ⟨fun _ => rfl, fun r => Vector.getElem_replicate r.isLt, rfl, rfl, rfl, rfl, rfl, rfl, rfl, rfl⟩

/-- Settles O44: the reset core is idle, so nothing is published, and no wait is open. -/
theorem invariantHoldsAtReset : Obligations.InvariantHoldsAtReset where
  memCanonical := rfl
  closedIffHalted := rfl
  resultOfRun := rfl
  takenPublished := nofun
  idlePristine _ := ⟨rfl, rfl, rfl, rfl⟩
  waitsInInp := nofun
  waitsInOut := nofun
  stackBounded := nofun

/-- Settles O53, by `Effect.stack_cases`. -/
theorem stackChangesOnlyAtTheTop : Obligations.StackChangesOnlyAtTheTop := by
  intro i s t h
  obtain he | ⟨v, he, -, hi⟩ | hdrop := (effect_of_exec h).stack_cases
  · exact .inl he
  · exact .inr (.inl ⟨v, he, hi⟩)
  · exact .inr (.inr hdrop)

/-- Settles O55, by `Effect.controlKept`. -/
theorem controlStateChangesOnlyAtTheEndOfTheRun :
    Obligations.ControlStateChangesOnlyAtTheEndOfTheRun := by
  intro i s t h
  obtain ⟨hc, htk, hsink, hcap, hsch, hl, hend⟩ := (effect_of_exec h).controlKept
  exact ⟨hc, htk, hsink, hcap, hsch, hl, hend⟩

/-- Settles O56, by `Effect.val15`. -/
theorem fifteenBitValuesAreClosed : Obligations.FifteenBitValuesAreClosed :=
  fun _ _ _ hs hrmem hcall h => (effect_of_exec h).val15 hs hrmem hcall
end

section
/-! SUPPORT. The invariant under every move (10_state.md R26 to R29), and what is read off it: the run
status, the result and the output only go forward. -/

namespace Sys2Proof.Machine

variable {i : Instr} {s t0 t : State}

/-- The opcode word of a decoded instruction is its number in the table of 30_encoding.md R66. -/
theorem decodeOp_opcode {op wa wb wc : Word} (h : decodeOp op wa wb wc = some i) :
    op = BitVec.ofNat 16 i.opcode := by
  apply BitVec.eq_of_toNat_eq
  unfold decodeOp at h
  split at h <;> cases h <;> assumption

theorem atIp_inp {a : Operand} (h : s.atIp = some (.inp a)) : s.mem.get s.ip.toNat = 20 :=
  decodeOp_opcode h

theorem atIp_out {a : Operand} (h : s.atIp = some (.out a)) :
    s.mem.get s.ip.toNat = 19 ∧ Operand.ofWord (s.mem.get (s.ip.toNat + 1)) = a := by
  have hop : s.mem.get s.ip.toNat = 19 := decodeOp_opcode h
  unfold State.atIp at h
  rw [hop] at h
  cases h
  exact ⟨hop, rfl⟩

theorem RunStatus.halted_of_result {st : RunStatus} (h : st.result ≠ none) : st.halted = true := by
  cases st with
  | idle | running => exact absurd rfl h
  | haltedNormal | haltedCancelled | haltedFaulted => rfl

theorem run_ne_running_of_halted (h : s.run.halted = true) : s.run ≠ .running :=
  fun hr => absurd h (by rw [hr]; exact Bool.false_ne_true)

/-! ## The invariant, update by update -/

/-- The latch, the bytes on offer, the sink's readiness and the moves still to come are no part of the
invariant. -/
theorem State.Inv.of_boundary (h : s.Inv) (cancel sinkReady : Bool) (offered : List Byte)
    (schedule : List Event) (later : Option Nat) :
    ({ s with cancel, sinkReady, offered, schedule, later } : State).Inv :=
  ⟨h.memCanonical, h.closedIffHalted, h.resultOfRun, h.takenPublished, h.idlePristine, h.waitsInInp,
    h.waitsInOut, h.stackBounded⟩

/-- The end of a run, with the result that belongs to it. -/
theorem State.Inv.finish (h : s.Inv) {st : RunStatus} {r : Result} (hr : st.result = some r) :
    (s.finish st r).Inv := by
  have hst : st.halted = true := RunStatus.halted_of_result (by rw [hr]; exact Option.some_ne_none r)
  refine ⟨h.memCanonical, hst.symm, hr.symm, fun _ => hst, fun hi => ?_, nofun, nofun, h.stackBounded⟩
  exact absurd hst (by rw [show st = .idle from hi]; exact Bool.false_ne_true)

theorem State.Inv.started (h : s.Inv) (hr : s.run = .idle) :
    ({ s with run := .running } : State).Inv where
  memCanonical := h.memCanonical
  closedIffHalted := h.closedIffHalted.trans (by rw [hr]; rfl)
  resultOfRun := h.resultOfRun.trans (by rw [hr]; rfl)
  takenPublished htk := absurd (h.takenPublished htk) (by rw [hr]; exact Bool.false_ne_true)
  idlePristine := nofun
  waitsInInp hp := ⟨rfl, (h.waitsInInp hp).2⟩
  waitsInOut hp := ⟨rfl, (h.waitsInOut hp).2⟩
  stackBounded := h.stackBounded

theorem State.Inv.tookResult (h : s.Inv) {b : Bool} (hb : b = true → s.result ≠ none) :
    ({ s with resultTaken := b } : State).Inv where
  memCanonical := h.memCanonical
  closedIffHalted := h.closedIffHalted
  resultOfRun := h.resultOfRun
  takenPublished htk := RunStatus.halted_of_result (h.resultOfRun ▸ hb htk)
  idlePristine := h.idlePristine
  waitsInInp := h.waitsInInp
  waitsInOut := h.waitsInOut
  stackBounded := h.stackBounded

/-- An instruction that a running core runs keeps the invariant: run status, result and closure change
together, and a wait is one of the `in` or `out` that `ip` points at. -/
theorem State.Inv.ran (h : s.Inv) (hr : s.run = .running) (hp : s.ip.toNat ≤ 32767)
    (hi : s.atIp = some i) (he : Effect i s t) : t.Inv := by
  have hc := he.controlKept
  have hw := he.phase_cases
  refine
    { memCanonical := he.mem_wf h.memCanonical
      closedIffHalted := ?_
      resultOfRun := ?_
      takenPublished := fun htk => ?_
      idlePristine := fun hidle => ?_
      waitsInInp := fun hph => ?_
      waitsInOut := fun hph => ?_
      stackBounded := he.stackBounded h.stackBounded }
  · obtain ⟨hrun, -, hcl⟩ | ⟨hhalt, -, hcl, -⟩ := hc.ending
    · rw [hcl, hrun, h.closedIffHalted]
    · rw [hcl, hhalt]
  · obtain ⟨hrun, hres, -⟩ | ⟨-, hres, -, -⟩ := hc.ending
    · rw [hres, hrun, h.resultOfRun]
    · exact hres
  · have hhalt := h.takenPublished (hc.resultTaken ▸ htk)
    exact absurd hr (run_ne_running_of_halted hhalt)
  · obtain ⟨hrun, -, -⟩ | ⟨hhalt, -, -, -⟩ := hc.ending
    · exact absurd (hidle.symm.trans (hrun.trans hr)) nofun
    · exact absurd hhalt (by rw [hidle]; exact Bool.false_ne_true)
  · obtain htop | ⟨rfl, a, rfl⟩ | ⟨rfl, -⟩ := hw
    · exact absurd (htop.symm.trans hph) nofun
    · exact ⟨hr, hp, atIp_inp hi⟩
    · exact absurd hph nofun
  · obtain htop | ⟨rfl, -⟩ | ⟨rfl, a, v, rfl, hp1, hv⟩ := hw
    · exact absurd (htop.symm.trans hph) nofun
    · exact absurd hph nofun
    · obtain ⟨hop, rfl⟩ := atIp_out hi
      exact ⟨hr, hp1, hop, fun hn => Option.some_ne_none v (hv.symm.trans hn)⟩

theorem Turn.inv (ht : Turn s t) (h : s.Inv) : t.Inv := by
  cases ht with
  | still => exact h
  | cancelledAtTop => exact h.finish rfl
  | fetchFault => exact h.finish rfl
  | ran i t hr hp hi he => exact h.ran hr hp hi (effect_of_exec he)

theorem Move.inv (hm : Move s t0 t) (h : s.Inv) : t.Inv := by
  obtain ⟨rest, n, rfl⟩ := hm.frame
  have h0 := h.of_boundary s.cancel s.sinkReady s.offered rest n
  cases hm with
  | turn _ _ ht => exact ht.inv h0
  | started _ hr => exact h0.started hr
  | tookResult b _ _ hb => exact h0.tookResult hb
  | latched => exact h.of_boundary true s.sinkReady s.offered rest n
  | offered b => exact h.of_boundary s.cancel s.sinkReady (s.offered ++ [b]) rest n
  | sinkSet b => exact h.of_boundary s.cancel _ s.offered rest n

/-! ## What a turn and a move keep -/

/-- The engine's turn changes nothing unless the core runs. -/
theorem Turn.eq_or_running (h : Turn s t) : t = s ∨ s.run = .running := by
  cases h with
  | still => exact .inl rfl
  | cancelledAtTop hr | fetchFault _ hr | ran _ _ hr => exact .inr hr

theorem Turn.controlKept (h : Turn s t) : s.ControlKept t := by
  cases h with
  | still => exact ⟨rfl, rfl, rfl, rfl, rfl, rfl, .inl ⟨rfl, rfl, rfl⟩⟩
  | cancelledAtTop | fetchFault => exact ⟨rfl, rfl, rfl, rfl, rfl, rfl, .inr ⟨rfl, rfl, rfl, rfl⟩⟩
  | ran _ _ _ _ _ he => exact (effect_of_exec he).controlKept

/-- Result and output are the engine's: the other agents' moves leave them. -/
theorem Move.turn_or_kept (h : Move s t0 t) :
    Turn t0 t ∨ (t.result = s.result ∧ t.outClosed = s.outClosed ∧ t.outTrace = s.outTrace) := by
  obtain ⟨rest, n, rfl⟩ := h.frame
  cases h with
  | turn _ _ ht => exact .inl ht
  | started | latched | tookResult | offered | sinkSet => exact .inr ⟨rfl, rfl, rfl⟩

/-- In a core whose run has ended, or has not begun, no move changes result or output. -/
theorem Move.kept_of_ne_running (h : Move s t0 t) (hr : s.run ≠ .running) :
    t.result = s.result ∧ t.outClosed = s.outClosed ∧ t.outTrace = s.outTrace := by
  obtain ht | hk := h.turn_or_kept
  · obtain ⟨rest, n, rfl⟩ := h.frame
    obtain rfl | hrun := ht.eq_or_running
    · exact ⟨rfl, rfl, rfl⟩
    · exact absurd hrun hr
  · exact hk

/-- `s` runs the `out` at `ip`, and `t` has the low byte of its value behind the output so far. -/
def State.EmitsTo (s t : State) : Prop :=
  s.run = .running ∧ s.mem.get s.ip.toNat = 19 ∧ s.sinkReady = true ∧
    ∃ x, s.worth (Operand.ofWord (s.mem.get (s.ip.toNat + 1))) = some x ∧
      t.outTrace = s.outTrace ++ [BitVec.ofNat 8 (x.toNat % 256)]

theorem setWidth_eight (x : Word) : x.setWidth 8 = BitVec.ofNat 8 (x.toNat % 256) := by
  apply BitVec.eq_of_toNat_eq
  simp

theorem Turn.outTrace_cases (h : Turn s t) : t.outTrace = s.outTrace ∨ s.EmitsTo t := by
  cases h with
  | still | cancelledAtTop | fetchFault => exact .inl rfl
  | ran i _ hr _ hi he =>
    obtain heq | ⟨a, v, rfl, ha, hs, happ⟩ := (effect_of_exec he).outTrace_cases
    · exact .inl heq
    · obtain ⟨hop, rfl⟩ := atIp_out hi
      exact .inr ⟨hr, hop, hs, v, ha, setWidth_eight v ▸ happ⟩

theorem Move.outTrace_cases (h : Move s t0 t) : t.outTrace = s.outTrace ∨ s.EmitsTo t := by
  obtain ht | ⟨-, -, hk⟩ := h.turn_or_kept
  · obtain ⟨rest, n, rfl⟩ := h.frame
    exact ht.outTrace_cases
  · exact .inl hk

end Sys2Proof.Machine

open Sys2Proof Sys2Proof.Machine

/-- Settles O46, move by move (`Move.inv`): the other agents' moves write fields of the boundary, and
the engine's turn ends the run or runs the instruction at `ip`. -/
theorem everyStepKeepsTheInvariant : Obligations.EveryStepKeepsTheInvariant := by
  intro s t h hstep
  obtain ⟨t0, hm⟩ := step_move hstep
  exact hm.inv h

/-- Settles O47: START apart, only the engine's turn writes the run status, and only to end the run. -/
theorem runStatusOnlyMovesForward : Obligations.RunStatusOnlyMovesForward := by
  intro s t hstep
  obtain ⟨t0, hm⟩ := step_move hstep
  obtain ⟨rest, n, rfl⟩ := hm.frame
  cases hm with
  | turn _ _ ht =>
    obtain rfl | hr := ht.eq_or_running
    · exact .inl rfl
    · obtain ⟨hrun, -⟩ | ⟨hhalt, -⟩ := ht.controlKept.ending
      · exact .inl hrun
      · exact .inr (.inr ⟨hr, hhalt⟩)
  | started h hr => exact .inr (.inl ⟨hr, rfl, _, h⟩)
  | latched | tookResult | offered | sinkSet => exact .inl rfl

/-- Settles O49: CANCEL apart, every move keeps the latch. -/
theorem onlyRequestHaltChangesTheLatch : Obligations.OnlyRequestHaltChangesTheLatch := by
  intro s t hstep
  obtain ⟨t0, hm⟩ := step_move hstep
  obtain ⟨rest, n, rfl⟩ := hm.frame
  cases hm with
  | turn _ _ ht => exact .inl ht.controlKept.cancel
  | latched h => exact .inr ⟨rfl, _, h⟩
  | started | tookResult | offered | sinkSet => exact .inl rfl

/-- Settles O50: a core with a result does not run, so no move changes it; and a result comes only from
an engine's turn that ends the run. -/
theorem resultIsPublishedOnceWhenTheRunEnds : Obligations.ResultIsPublishedOnceWhenTheRunEnds := by
  intro s t hinv hstep
  obtain ⟨t0, hm⟩ := step_move hstep
  constructor
  · intro r hr
    have hhalt : s.run.halted = true :=
      RunStatus.halted_of_result (by rw [← hinv.resultOfRun, hr]; exact Option.some_ne_none r)
    exact (hm.kept_of_ne_running (run_ne_running_of_halted hhalt)).1.trans hr
  · intro r hs ht
    have hne : t.result ≠ s.result := by rw [hs, ht]; exact Option.some_ne_none r
    have hrun : s.run = .running := by
      by_contra hr
      exact hne (hm.kept_of_ne_running hr).1
    obtain hturn | ⟨hkept, -⟩ := hm.turn_or_kept
    · obtain ⟨rest, n, rfl⟩ := hm.frame
      obtain ⟨-, hkept, -⟩ | ⟨hhalt, hres, hcl, -⟩ := hturn.controlKept.ending
      · exact absurd hkept hne
      · exact ⟨hrun, hhalt, hres.symm.trans ht, hcl⟩
    · exact absurd hkept hne

/-- Settles O60: `Move.outTrace_cases`, the invariant of the next state, and that a closed core does not
run. -/
theorem outputOnlyGrowsUntilItIsClosed : Obligations.OutputOnlyGrowsUntilItIsClosed := by
  intro s t hinv hstep
  obtain ⟨t0, hm⟩ := step_move hstep
  refine ⟨hm.outTrace_cases, by rw [(hm.inv hinv).closedIffHalted], fun hcl => ?_⟩
  have hhalt : s.run.halted = true := hinv.closedIffHalted ▸ hcl
  obtain ⟨-, hclosed, htrace⟩ := hm.kept_of_ne_running (run_ne_running_of_halted hhalt)
  exact ⟨htrace, hclosed.trans hcl⟩
end

section
/-! SUPPORT. Noninterference of a register that is not read (10_state.md R22): two states that differ in
register `q` at most run an instruction that has no value operand `q` alike. -/

namespace Sys2Proof.Machine

variable {q : RegIdx} {s s' : State}

/-- `s'` is `s` but for what register `q` holds. -/
def State.EqOff (q : RegIdx) (s s' : State) : Prop :=
  ∃ regs, s' = { s with regs } ∧ ∀ p : RegIdx, p ≠ q → regs[p] = s.regs[p]

namespace State.EqOff

theorem of_setReg (q : RegIdx) (s : State) (w : Word) : State.EqOff q s (s.setReg q w) :=
  ⟨(s.setReg q w).regs, rfl, fun _ hp => setReg_regs_get_of_ne hp w⟩

/-- An update that neither reads nor writes registers. -/
theorem map (h : State.EqOff q s s') (f : State → State)
    (hf : ∀ s regs, f { s with regs } = { f s with regs } := by exact fun _ _ => rfl)
    (hr : ∀ s, (f s).regs = s.regs := by exact fun _ => rfl) : State.EqOff q (f s) (f s') := by
  obtain ⟨regs, rfl, hregs⟩ := h
  exact ⟨regs, hf s regs, by rwa [hr s]⟩

theorem setReg (h : State.EqOff q s s') (r : RegIdx) (v : Word) :
    State.EqOff q (s.setReg r v) (s'.setReg r v) := by
  obtain ⟨regs, rfl, hregs⟩ := h
  refine ⟨(State.setReg { s with regs } r v).regs, rfl, fun p hp => ?_⟩
  rw [setReg_regs_get, setReg_regs_get, hregs p hp]

theorem val_eq (h : State.EqOff q s s') {o : Operand} (ho : o ≠ .reg q) (p : Nat) :
    s'.val p o = s.val p o := by
  obtain ⟨regs, rfl, hregs⟩ := h
  cases o with
  | lit | invalid => rfl
  | reg r =>
    have hr : regs[r] = s.regs[r] := hregs r fun e => ho (congrArg _ e)
    simp only [State.val, State.reg, hr]
    rfl

/-- What is computed without the registers is the same in both states. -/
theorem eq_on {α : Type} (h : State.EqOff q s s') (f : State → α)
    (hf : ∀ s regs, f { s with regs } = f s := by exact fun _ _ => rfl) : f s' = f s := by
  obtain ⟨regs, rfl, -⟩ := h
  exact hf s regs

theorem withVal (h : State.EqOff q s s') {p : Nat} {o : Operand} {k k' : Word → State}
    (ho : o ≠ .reg q) (hk : ∀ v, State.EqOff q (k v) (k' v)) :
    State.EqOff q (s.withVal p o k) (s'.withVal p o k') := by
  unfold State.withVal
  rw [h.val_eq ho]
  cases s.val p o with
  | ok v => exact hk v
  | error f => exact h.map (·.raise f)

theorem withTgt (h : State.EqOff q s s') {o : Operand} {v : Word} {k k' : State → State}
    (hk : ∀ t t', State.EqOff q t t' → State.EqOff q (k t) (k' t')) :
    State.EqOff q (s.withTgt o v k) (s'.withTgt o v k') := by
  cases hf : s.targetFault o with
  | none =>
    obtain ⟨hp, r, rfl⟩ := targetFault_eq_none.mp hf
    rw [withTgt_reg hp, withTgt_reg ((h.eq_on (·.ip)).symm ▸ hp)]
    exact hk _ _ (h.setReg r v)
  | some f =>
    rw [withTgt_of_fault hf, withTgt_of_fault ((h.eq_on (·.targetFault o)).trans hf)]
    exact h.map (·.faulted f)

theorem ite {c c' : Bool} {a a' b b' : State} (hc : c' = c) (ht : State.EqOff q a a')
    (he : State.EqOff q b b') : State.EqOff q (if c then a else b) (if c' then a' else b') := by
  subst hc
  split
  · exact ht
  · exact he

theorem binaryRule (h : State.EqOff q s s') (f : Word → Word → Word) (a : Operand) {b c : Operand}
    (hb : b ≠ .reg q) (hc : c ≠ .reg q) :
    State.EqOff q (s.binaryRule f a b c) (s'.binaryRule f a b c) :=
  h.withVal hb fun _ => h.withVal hc fun _ => h.withTgt fun _ _ ht => ht.map (·.advance 4)

theorem unaryRule (h : State.EqOff q s s') (f : Word → Word) (a : Operand) {b : Operand}
    (hb : b ≠ .reg q) : State.EqOff q (s.unaryRule f a b) (s'.unaryRule f a b) :=
  h.withVal hb fun _ => h.withTgt fun _ _ ht => ht.map (·.advance 3)

theorem receive (h : State.EqOff q s s') (a : Operand) (b : Byte) (rest : List Byte) :
    State.EqOff q (s.receive a b rest) (s'.receive a b rest) :=
  (h.map (·.takeByte rest)).withTgt fun _ _ ht => ht.map (·.advance 2)

/-- States that differ in `q` at most give next states that differ in `q` at most, when `q` is no value
operand. -/
theorem exec_next {i : Instr} (h : State.EqOff q s s')
    (hi : (OperandKind.value, Operand.reg q) ∉ i.shape) :
    ∃ t t', exec i s = .next t ∧ exec i s' = .next t' ∧ State.EqOff q t t' := by
  have hv {o : Operand} (ho : (OperandKind.value, o) ∈ i.shape := by simp [Instr.shape]) :
      o ≠ .reg q := fun e => hi (e ▸ ho)
  cases i with
  | halt => exact ⟨_, _, rfl, rfl, h.map (·.haltNormal)⟩
  | nop => exact ⟨_, _, rfl, rfl, h.map (·.advance 1)⟩
  | set a b | not a b => exact ⟨_, _, rfl, rfl, h.unaryRule _ a hv⟩
  | eq a b c | gt a b c | add a b c | mult a b c | and a b c | or a b c =>
    exact ⟨_, _, rfl, rfl, h.binaryRule _ a hv hv⟩
  | mod a b c =>
    exact ⟨_, _, rfl, rfl, h.withVal hv fun vb => h.withVal hv fun vc => by
      split
      · exact h.map fun s => s.raise (divisionByZeroInfo s)
      · exact h.withTgt fun _ _ ht => ht.map (·.advance 4)⟩
  | jmp a => exact ⟨_, _, rfl, rfl, h.withVal hv fun t => h.map (·.retire t)⟩
  | jt a b =>
    exact ⟨_, _, rfl, rfl, h.withVal hv fun _ => h.withVal hv fun t =>
      .ite rfl (h.map (·.retire t)) (h.map (·.advance 3))⟩
  | jf a b =>
    exact ⟨_, _, rfl, rfl, h.withVal hv fun _ => h.withVal hv fun t =>
      .ite rfl (h.map (·.advance 3)) (h.map (·.retire t))⟩
  | push a =>
    exact ⟨_, _, rfl, rfl, h.withVal hv fun v =>
      .ite (h.eq_on (·.stackFull)) (h.map (·.raise stackOverflowInfo))
        (h.map fun s => (s.pushWord v).advance 2)⟩
  | call a =>
    exact ⟨_, _, rfl, rfl, h.withVal hv fun t =>
      .ite (h.eq_on (·.stackFull)) (h.map (·.raise stackOverflowInfo))
        (h.map fun s => (s.pushWord (s.ip + 2)).retire t)⟩
  | pop a =>
    refine ⟨_, _, rfl, rfl, ?_⟩
    rw [h.eq_on (·.topWord)]
    cases s.topWord with
    | none => exact h.map (·.raise stackUnderflowInfo)
    | some v => exact h.withTgt fun _ _ ht => ht.map fun t => t.dropWord.advance 2
  | ret =>
    refine ⟨_, _, rfl, rfl, ?_⟩
    rw [h.eq_on (·.topWord)]
    cases s.topWord with
    | none => exact h.map (·.haltNormal)
    | some t => exact h.map fun s => s.dropWord.retire t
  | rmem a b =>
    refine ⟨_, _, rfl, rfl, h.withVal hv fun x => ?_⟩
    rw [h.eq_on (·.memRead x.toNat)]
    cases s.memRead x.toNat with
    | error f => exact h.map (·.raise f)
    | ok w => exact h.withTgt fun _ _ ht => ht.map (·.advance 3)
  | wmem a b =>
    refine ⟨_, _, rfl, rfl, h.withVal hv fun x => h.withVal hv fun w => ?_⟩
    unfold State.memWrite
    by_cases hx : x.toNat < Config.memWords
    · rw [if_pos hx, if_pos hx]
      exact h.map fun s => State.advance { s with mem := s.mem.set x.toNat w } 3
    · rw [if_neg hx, if_neg hx]
      exact h.map (·.raise (outOfRange x.toNat))
  | out a =>
    exact ⟨_, _, rfl, rfl, h.withVal hv fun v =>
      .ite (h.eq_on (·.sinkReady)) (h.map fun s => (s.emit (v.setWidth 8)).advance 2)
        (h.map (·.wait .waitOut))⟩
  | inp a =>
    have hc := h.eq_on (·.cancel)
    have ho' := h.eq_on (·.offered)
    cases ho : s.offered with
    | nil =>
      exact ⟨_, _, execInp_nil a ho, execInp_nil a (ho'.trans ho),
        .ite hc (h.map (·.haltCancelled)) (h.map (·.wait .waitIn))⟩
    | cons b rest =>
      have htie := h.map (·.countTie)
      exact ⟨_, _, execInp_cons a ho, execInp_cons a (ho'.trans ho),
        .ite hc (.ite (h.eq_on fun s => Config.tieTakesByte s.ties) (htie.receive a b rest)
          (htie.map (·.haltCancelled))) (h.receive a b rest)⟩

end State.EqOff

end Sys2Proof.Machine

open Sys2Proof Sys2Proof.Machine

/-- Settles O51: a write replaces one entry of the register file; `Effect.regs_get` is the frame of the
write, and `State.EqOff.exec_next` says that a register which is no value operand is not read. -/
theorem registersChangeOnlyAtTheTarget : Obligations.RegistersChangeOnlyAtTheTarget := by
  refine ⟨setReg_regs_get, fun _ _ _ _ h hr => (effect_of_exec h).regs_get hr, ?_⟩
  intro i s t q w h hi
  obtain ⟨t', u, ht', hu, regs, rfl, hregs⟩ := (State.EqOff.of_setReg q s w).exec_next hi
  obtain rfl : t' = t := by simpa [ht'] using h
  exact ⟨_, hu, rfl, hregs⟩
end

section
/-! SUPPORT. Memory under one instruction (20_memory.md R42, R53), and the image's byte order (R43): what
the bytes of words read back as. -/

namespace Sys2Proof.Machine

variable {i : Instr} {s t : State}

/-- Memory stays, or a `wmem` writes one word at the address its first operand is worth. -/
theorem Effect.mem_cases (h : Effect i s t) :
    t.mem = s.mem ∨
    ∃ a b x w, i = .wmem a b ∧ s.worth a = some x ∧ t.mem = s.mem.set x.toNat w := by
  cases h with
  | stored a b x w _ hi ha => exact .inr ⟨a, b, x, w, hi, ha, rfl⟩
  | fault | halted | moved | wrote | popped | pushed | returned | emitted | waitsOut | waitsIn
  | cancelled | received | receivedFault => exact .inl rfl

end Sys2Proof.Machine

namespace Sys2Proof

theorem append_high_low (w : Word) :
    ((w >>> 8).setWidth 8 ++ w.setWidth 8 : Word) = w := by
  apply BitVec.eq_of_toNat_eq
  rw [BitVec.toNat_append, ← Nat.shiftLeft_add_eq_or_of_lt (BitVec.isLt _)]
  bv_omega

theorem toNat_eq_low_add_high (w : Word) :
    w.toNat = (w.setWidth 8).toNat + 256 * ((w >>> 8).setWidth 8).toNat := by
  bv_omega

/-- The bytes of words read back as these words, in front of what the bytes that follow read as. -/
theorem wordsOfBytes_bytesOfWords_append (ws : List Word) (bs : List Byte) :
    wordsOfBytes (bytesOfWords ws ++ bs) = (wordsOfBytes bs).map (ws ++ ·) := by
  induction ws with
  | nil => exact Option.map_id'.symm
  | cons w ws ih =>
    calc wordsOfBytes (bytesOfWords (w :: ws) ++ bs)
        = (wordsOfBytes (bytesOfWords ws ++ bs)).map
            (((w >>> 8).setWidth 8 ++ w.setWidth 8 : Word) :: ·) := rfl
      _ = ((wordsOfBytes bs).map (ws ++ ·)).map (w :: ·) := by rw [ih, append_high_low]
      _ = (wordsOfBytes bs).map (w :: ws ++ ·) := Option.map_map ..

theorem wordsOfBytes_bytesOfWords (ws : List Word) : wordsOfBytes (bytesOfWords ws) = some ws := by
  simpa [wordsOfBytes] using wordsOfBytes_bytesOfWords_append ws []

/-- Word `k` is byte `2k` plus 256 times byte `2k + 1`; past the last word all three are 0. -/
theorem getD_eq_bytesOfWords_getD (ws : List Word) (k : Nat) :
    (ws.getD k 0).toNat = ((bytesOfWords ws).getD (2 * k) 0).toNat +
      256 * ((bytesOfWords ws).getD (2 * k + 1) 0).toNat := by
  induction ws generalizing k with
  | nil => rfl
  | cons w ws ih =>
    cases k with
    | zero => exact toNat_eq_low_add_high w
    | succ k => exact ih k

end Sys2Proof

open Sys2Proof Sys2Proof.Machine

/-- Settles O38, by `Memory.get_set_from`. -/
theorem memoryReadsWhatWasLastWritten : Obligations.MemoryReadsWhatWasLastWritten :=
  fun _ _ _ _ hm => Memory.get_set_from hm

/-- Settles O39, by `Memory.set_wfFrom`. -/
theorem memoryWriteKeepsCanonicalForm : Obligations.MemoryWriteKeepsCanonicalForm :=
  fun _ a _ hm ha => Memory.set_wfFrom hm (Nat.zero_le a) (Nat.lt_succ_of_le ha)

/-- Settles O40, by `Memory.ext_from`: above address 32767 both memories read 0. -/
theorem canonicalMemoriesWithEqualWordsAreEqual :
    Obligations.CanonicalMemoriesWithEqualWordsAreEqual := by
  intro m n hm hn h
  refine Memory.ext_from hm hn fun a => ?_
  obtain ha | ha := Nat.lt_or_ge 32767 a
  · rw [Memory.get_above hm ha, Memory.get_above hn ha]
  · exact h a ha

/-- Settles O42: reading the words' bytes back gives the words, and a byte more is a lone last byte. -/
theorem imageBytesAreLittleEndianWords : Obligations.ImageBytesAreLittleEndianWords := by
  intro cap image last
  refine ⟨?_, ?_, fun k _ => getD_eq_bytesOfWords_getD image k⟩
  · unfold State.ofImageBytes
    rw [wordsOfBytes_bytesOfWords]
  · unfold State.ofImageBytes
    rw [wordsOfBytes_bytesOfWords_append]
    rfl

/-- Settles O52, by `Effect.mem_cases`: the one word `wmem` writes is read at its own address only. -/
theorem memoryChangesOnlyAtTheWmemAddress : Obligations.MemoryChangesOnlyAtTheWmemAddress := by
  intro i s t hwf h
  obtain hmem | ⟨a, b, x, w, rfl, ha, hmem⟩ := (effect_of_exec h).mem_cases
  · exact ⟨fun _ _ => by rw [hmem], fun _ _ _ _ _ => by rw [hmem]⟩
  · refine ⟨fun hne => absurd rfl (hne a b), ?_⟩
    rintro _ _ ⟨⟩ y hy
    rw [hmem, Memory.get_set_from hwf, if_neg (hy x ha).symm]
end

section
/-! SUPPORT. Decoding and encoding (30_encoding.md R60 to R66, R73): operand words and operands, the
opcode map read in both directions, and from these what `decode` accepts, said once
(`decode_eq_ok_iff`). -/

namespace Sys2Proof

variable {i : Instr} {w : Word}

/-! ## Operand words (R63) -/

theorem Operand.ofWord_of_le (h : w.toNat ≤ 32767) : Operand.ofWord w = .lit (w.setWidth 15) :=
  if_pos h

theorem Operand.ofWord_of_between (h : 32768 ≤ w.toNat) (h' : w.toNat ≤ 32775) :
    Operand.ofWord w = .reg ⟨w.toNat % 8, Nat.mod_lt _ (by decide)⟩ :=
  (if_neg (by omega)).trans (if_pos h')

theorem Operand.ofWord_of_ge (h : 32776 ≤ w.toNat) : Operand.ofWord w = .invalid w :=
  (if_neg (by omega)).trans (if_neg (by omega))

/-- The three classes of R63 cover every word. -/
theorem Operand.word_classes (w : Word) :
    w.toNat ≤ 32767 ∨ (32768 ≤ w.toNat ∧ w.toNat ≤ 32775) ∨ 32776 ≤ w.toNat := by
  omega

theorem Operand.wf_ofWord (w : Word) : (Operand.ofWord w).wf = true := by
  obtain h | ⟨h, h'⟩ | h := Operand.word_classes w
  · rw [Operand.ofWord_of_le h]
    rfl
  · rw [Operand.ofWord_of_between h h']
    rfl
  · rw [Operand.ofWord_of_ge h]
    exact decide_eq_true h

theorem Operand.toWord_ofWord (w : Word) : (Operand.ofWord w).toWord = w := by
  obtain h | ⟨h, h'⟩ | h := Operand.word_classes w
  · rw [Operand.ofWord_of_le h]
    apply BitVec.eq_of_toNat_eq
    simp only [Operand.toWord, BitVec.toNat_setWidth]
    omega
  · rw [Operand.ofWord_of_between h h']
    apply BitVec.eq_of_toNat_eq
    simp only [Operand.toWord, BitVec.toNat_ofNat]
    omega
  · rw [Operand.ofWord_of_ge h]
    rfl

theorem Operand.ofWord_toWord {o : Operand} (h : o.wf = true) : Operand.ofWord o.toWord = o := by
  cases o with
  | lit v =>
    have hv : (v.setWidth 16).toNat ≤ 32767 := by
      rw [BitVec.toNat_setWidth]
      omega
    rw [Operand.toWord, Operand.ofWord_of_le hv]
    exact congrArg Operand.lit (BitVec.setWidth_setWidth_of_le v (by decide) |>.trans v.setWidth_eq)
  | reg r =>
    have hr : (BitVec.ofNat 16 (32768 + r.val)).toNat = 32768 + r.val := by
      rw [BitVec.toNat_ofNat]
      omega
    rw [Operand.toWord, Operand.ofWord_of_between (by omega) (by omega)]
    exact congrArg Operand.reg (Fin.ext (by simp only [hr]; omega))
  | invalid w => exact Operand.ofWord_of_ge (of_decide_eq_true h)

/-- A literal word is worth itself (R63, R85). -/
theorem Machine.worth_ofWord_of_le (s : Machine.State) (h : w.toNat ≤ 32767) :
    s.worth (Operand.ofWord w) = some w := by
  rw [Operand.ofWord_of_le h]
  refine congrArg some (BitVec.eq_of_toNat_eq ?_)
  rw [BitVec.toNat_ofNat, BitVec.toNat_setWidth]
  omega

/-! ## The operands of an instruction (R64, R65) -/

theorem Instr.shape_length_le (i : Instr) : i.shape.length ≤ 3 := by
  cases i <;> exact Nat.le_of_ble_eq_true rfl

/-- An instruction is well formed when each of its operands is the operand of some word. -/
theorem Instr.wf_of_operands {ws : List Word} (h : i.shape.map Prod.snd = ws.map Operand.ofWord) :
    i.wf = true := by
  refine List.all_eq_true.mpr fun ko hko => ?_
  have hmem : ko.2 ∈ ws.map Operand.ofWord := h ▸ List.mem_map_of_mem hko
  obtain ⟨w, -, hw⟩ := List.mem_map.mp hmem
  exact hw ▸ Operand.wf_ofWord w

/-- The operand words of a well-formed instruction have its operands. -/
theorem Instr.operands_of_wf (h : i.wf = true) :
    i.shape.map Prod.snd = (i.shape.map fun ko => ko.2.toWord).map Operand.ofWord := by
  rw [List.map_map]
  exact List.map_congr_left fun ko hko =>
    (Operand.ofWord_toWord (List.all_eq_true.mp h ko hko)).symm

/-- An instruction has the operands of given words exactly when it is well formed and these are its
operand words. -/
theorem Instr.operands_eq_iff (ws : List Word) :
    i.shape.map Prod.snd = ws.map Operand.ofWord ↔
      i.wf = true ∧ (i.shape.map fun ko => ko.2.toWord) = ws := by
  constructor
  · intro h
    refine ⟨Instr.wf_of_operands h, ?_⟩
    calc (i.shape.map fun ko => ko.2.toWord)
        = (i.shape.map Prod.snd).map Operand.toWord := by rw [List.map_map]; rfl
      _ = (ws.map Operand.ofWord).map Operand.toWord := by rw [h]
      _ = ws := by simp [List.map_map, Function.comp_def, Operand.toWord_ofWord]
  · rintro ⟨hwf, rfl⟩
    exact Instr.operands_of_wf hwf

/-! ## The opcode map (R66) -/

/-- What the opcode map gives has the operands of the words read, in position order and as many as
the instruction has. -/
theorem decodeOp_operands {op wa wb wc : Word} (h : decodeOp op wa wb wc = some i) :
    i.shape.map Prod.snd = ([wa, wb, wc].take i.shape.length).map Operand.ofWord := by
  unfold decodeOp at h
  split at h <;> cases h <;> rfl

/-- The opcode map read backwards: it finds an instruction by its number and its operands. -/
theorem decodeOp_of_operands {wa wb wc : Word}
    (h : i.shape.map Prod.snd = ([wa, wb, wc].take i.shape.length).map Operand.ofWord) :
    decodeOp (BitVec.ofNat 16 i.opcode) wa wb wc = some i := by
  cases i with
  | halt | ret | nop => rfl
  | push | pop | jmp | call | out | inp | set | jt | jf | not | rmem | wmem | eq | gt | add | mult
  | mod | and | or =>
    cases h
    rfl

theorem decodeOp_eq_some_iff {op wa wb wc : Word} :
    decodeOp op wa wb wc = some i ↔
      op = BitVec.ofNat 16 i.opcode ∧
        i.shape.map Prod.snd = ([wa, wb, wc].take i.shape.length).map Operand.ofWord := by
  constructor
  · intro h
    exact ⟨Machine.decodeOp_opcode h, decodeOp_operands h⟩
  · rintro ⟨rfl, h⟩
    exact decodeOp_of_operands h

/-! ## Whole word sequences (R65, R73) -/

/-- The decoder reads the three words behind the opcode word, and 0 for each that is missing. -/
theorem getD_three_eq_take (l : List Word) :
    [l.getD 0 0, l.getD 1 0, l.getD 2 0] = (l ++ [0, 0, 0]).take 3 := by
  match l with
  | [] | [_] | [_, _] | _ :: _ :: _ :: _ => rfl

/-- As far as an instruction uses them, the words read are those that stand there. -/
theorem take_getD_three {l : List Word} {n : Nat} (hn : n ≤ 3) (hl : n ≤ l.length) :
    [l.getD 0 0, l.getD 1 0, l.getD 2 0].take n = l.take n := by
  rw [getD_three_eq_take, List.take_take, Nat.min_eq_left hn, List.take_append_of_le_length hl]

theorem decode_cons_eq_ok_iff {op : Word} {tl rest : List Word} :
    decode (op :: tl) = .ok (i, rest) ↔
      decodeOp op (tl.getD 0 0) (tl.getD 1 0) (tl.getD 2 0) = some i ∧
        i.shape.length ≤ tl.length ∧ tl.drop i.shape.length = rest := by
  rw [decode]
  cases decodeOp op (tl.getD 0 0) (tl.getD 1 0) (tl.getD 2 0) with
  | none => exact iff_of_false nofun nofun
  | some j =>
    have hlen : j.length ≤ tl.length + 1 ↔ j.shape.length ≤ tl.length := by
      unfold Instr.length
      omega
    have hdrop : j.length - 1 = j.shape.length := Nat.add_sub_cancel_left ..
    by_cases hj : j.shape.length ≤ tl.length
    · simp only [hlen, hj, hdrop, if_true, Except.ok.injEq, Prod.mk.injEq, Option.some.injEq]
      exact and_congr_right fun h => by simp [← h, hj]
    · simp only [hlen, hj, if_false]
      exact iff_of_false nofun fun ⟨h, hi, _⟩ => hj (Option.some.inj h ▸ hi)

/-- Having the operands of the words behind the opcode word, with `rest` left over, is being well
formed and having these words. -/
theorem Instr.operands_of_words_iff {tl rest : List Word} :
    (i.shape.map Prod.snd =
        ([tl.getD 0 0, tl.getD 1 0, tl.getD 2 0].take i.shape.length).map Operand.ofWord ∧
      i.shape.length ≤ tl.length ∧ tl.drop i.shape.length = rest) ↔
    i.wf = true ∧ (i.shape.map fun ko => ko.2.toWord) ++ rest = tl := by
  constructor
  · rintro ⟨hops, hlen, rfl⟩
    rw [take_getD_three i.shape_length_le hlen] at hops
    obtain ⟨hwf, hwords⟩ := (Instr.operands_eq_iff _).mp hops
    exact ⟨hwf, by rw [hwords, List.take_append_drop]⟩
  · rintro ⟨hwf, rfl⟩
    have hlen : (i.shape.map fun ko => ko.2.toWord).length = i.shape.length := List.length_map ..
    refine ⟨?_, by simp, List.drop_left' hlen⟩
    rw [take_getD_three i.shape_length_le (by simp), List.take_left' hlen]
    exact (Instr.operands_eq_iff _).mpr ⟨hwf, rfl⟩

/-- What decodes, to which instruction, and with which words left over: exactly the encodings of the
well-formed instructions, whatever words follow. -/
theorem decode_eq_ok_iff {ws rest : List Word} :
    decode ws = .ok (i, rest) ↔ i.wf = true ∧ encode i ++ rest = ws := by
  cases ws with
  | nil => exact iff_of_false nofun nofun
  | cons op tl =>
    rw [decode_cons_eq_ok_iff, decodeOp_eq_some_iff, and_assoc, Instr.operands_of_words_iff, encode,
      List.cons_append, List.cons.injEq, and_left_comm, eq_comm (a := op)]

end Sys2Proof

open Sys2Proof Sys2Proof.Machine

/-- Settles O1, by `decode_eq_ok_iff`. -/
theorem decodeOfEncodeGivesTheInstructionBack : Obligations.DecodeOfEncodeGivesTheInstructionBack :=
  fun _ _ hwf => decode_eq_ok_iff.mpr ⟨hwf, rfl⟩

/-- Settles O2, by `decode_eq_ok_iff`. -/
theorem encodeOfDecodeGivesTheWordsBack : Obligations.EncodeOfDecodeGivesTheWordsBack :=
  fun _ _ _ h => decode_eq_ok_iff.mp h

/-- Settles O3: `Operand.ofWord` on each of the three classes, and the samples by evaluation. -/
theorem sampleWordsOfEachFamilyDecode : Obligations.SampleWordsOfEachFamilyDecode := by
  refine ⟨fun s w => ⟨fun h => ?_, fun h h' => ?_, fun h => ?_⟩, by decide⟩
  · exact ⟨_, Operand.ofWord_of_le h, BitVec.toNat_setWidth .., worth_ofWord_of_le s h⟩
  · rw [Operand.ofWord_of_between h h']
    exact ⟨_, rfl, (by omega : w.toNat % 8 = w.toNat - 32768), rfl, rfl⟩
  · rw [Operand.ofWord_of_ge h]
    exact ⟨w, rfl, rfl⟩
end

section
/-! SUPPORT. Faults of an instruction whose operands are legal for their kinds and whose words lie
in memory (30_encoding.md R64, R72): its operands resolve, so what is left is a check of its own. -/

namespace Sys2Proof.Machine

variable {i : Instr} {s t : State} {o : Operand}

/-- The operands of `i` are legal for their kinds, and its words lie in memory (R64, R82). -/
def State.Resolvable (s : State) (i : Instr) : Prop :=
  i.legal = true ∧ s.ip.toNat + i.length ≤ 32768

/-- The faults left to an instruction with such operands: those of the stack and of the divisor, and
the data access of `rmem` and `wmem`. -/
def FaultCode.OwnTo (c : FaultCode) (i : Instr) : Prop :=
  c ≠ .invalidValue ∧ c ≠ .notARegister ∧ c ≠ .invalidOpcode ∧
    (c = .addressOutOfRange → (∃ a b, i = .rmem a b) ∨ ∃ a b, i = .wmem a b)

/-- If the run has ended in a fault in `t`, it is one of those left to `i`. -/
def State.FaultsOnlyBy (t : State) (i : Instr) : Prop :=
  ∀ f, t.run = .haltedFaulted f → f.code.OwnTo i

theorem accepts_value (h : OperandKind.value.accepts o = true) (s : State) :
    ∃ v, s.worth o = some v := by
  cases o with
  | lit | reg => exact ⟨_, rfl⟩
  | invalid => cases h

theorem accepts_target (h : OperandKind.target.accepts o = true) : ∃ r, o = .reg r := by
  cases o with
  | reg r => exact ⟨r, rfl⟩
  | lit | invalid => cases h

/-- The operand at index `p` of the shape, the one at position `p + 1`: its word lies in memory, and
its kind accepts it. -/
theorem State.Resolvable.operand {p : Nat} {ko : OperandKind × Operand} (h : s.Resolvable i)
    (hp : i.shape[p]? = some ko) : s.ip.toNat + (p + 1) ≤ 32767 ∧ ko.1.accepts ko.2 = true := by
  obtain ⟨hlegal, hlen⟩ := h
  obtain ⟨hlt, -⟩ := List.getElem?_eq_some_iff.mp hp
  unfold Instr.length at hlen
  exact ⟨by omega, List.all_eq_true.mp hlegal ko (List.mem_of_getElem? hp)⟩

namespace State.FaultsOnlyBy

theorem of_running (h : t.run = .running) : t.FaultsOnlyBy i :=
  fun f hf => absurd hf (run_ne_faulted h f)

theorem raise {f : FaultInfo} (h : f.code.OwnTo i) : (s.raise f).FaultsOnlyBy i := by
  rintro _ ⟨⟩
  exact h

theorem haltNormal : s.haltNormal.FaultsOnlyBy i := nofun

theorem haltCancelled : s.haltCancelled.FaultsOnlyBy i := nofun

theorem withVal {p : Nat} {k : Word → State} (hs : s.Resolvable i)
    (ho : i.shape[p]? = some (.value, o)) (hk : ∀ v, (k v).FaultsOnlyBy i) :
    (s.withVal (p + 1) o k).FaultsOnlyBy i := by
  obtain ⟨hp, hacc⟩ := hs.operand ho
  obtain ⟨v, hv⟩ := accepts_value hacc s
  rw [withVal_of_worth hp hv]
  exact hk v

theorem withTgt {v : Word} {k : State → State} (hs : s.Resolvable i)
    (ho : i.shape[0]? = some (.target, o)) (hk : ∀ r, (k (s.setReg r v)).FaultsOnlyBy i) :
    (s.withTgt o v k).FaultsOnlyBy i := by
  obtain ⟨hp, hacc⟩ := hs.operand ho
  obtain ⟨r, rfl⟩ := accepts_target hacc
  rw [withTgt_reg hp]
  exact hk r

theorem binaryRule {f : Word → Word → Word} {a b c : Operand} (hs : s.Resolvable i)
    (hr : s.run = .running) (hi : i.shape = [(.target, a), (.value, b), (.value, c)]) :
    (s.binaryRule f a b c).FaultsOnlyBy i :=
  withVal hs (by rw [hi]; rfl) fun _ => withVal hs (by rw [hi]; rfl) fun _ =>
    withTgt hs (by rw [hi]; rfl) fun _ => of_running hr

theorem unaryRule {f : Word → Word} {a b : Operand} (hs : s.Resolvable i)
    (hr : s.run = .running) (hi : i.shape = [(.target, a), (.value, b)]) :
    (s.unaryRule f a b).FaultsOnlyBy i :=
  withVal hs (by rw [hi]; rfl) fun _ => withTgt hs (by rw [hi]; rfl) fun _ => of_running hr

theorem receive {a : Operand} {b : Byte} {rest : List Byte} (hs : s.Resolvable (.inp a))
    (hr : s.run = .running) : (s.receive a b rest).FaultsOnlyBy (.inp a) :=
  withTgt (s := s.takeByte rest) hs rfl fun _ => of_running hr

theorem ite {c : Prop} [Decidable c] {a b : State} (ha : a.FaultsOnlyBy i)
    (hb : b.FaultsOnlyBy i) : (if c then a else b).FaultsOnlyBy i := by
  split
  · exact ha
  · exact hb

/-- A running core that executes an instruction whose operands resolve raises no operand fault. -/
theorem exec_next (hs : s.Resolvable i) (hr : s.run = .running) :
    ∃ t, exec i s = .next t ∧ t.FaultsOnlyBy i := by
  cases i with
  | halt => exact ⟨_, rfl, haltNormal⟩
  | nop => exact ⟨_, rfl, of_running hr⟩
  | set a b | not a b => exact ⟨_, rfl, unaryRule hs hr rfl⟩
  | eq a b c | gt a b c | add a b c | mult a b c | and a b c | or a b c =>
    exact ⟨_, rfl, binaryRule hs hr rfl⟩
  | mod a b c =>
    exact ⟨_, rfl, withVal hs rfl fun _ => withVal hs rfl fun _ =>
      ite (raise ⟨nofun, nofun, nofun, nofun⟩) (withTgt hs rfl fun _ => of_running hr)⟩
  | jmp a => exact ⟨_, rfl, withVal hs rfl fun _ => of_running hr⟩
  | jt a b | jf a b =>
    exact ⟨_, rfl, withVal hs rfl fun _ => withVal hs rfl fun _ =>
      ite (of_running hr) (of_running hr)⟩
  | push a | call a =>
    exact ⟨_, rfl, withVal hs rfl fun _ =>
      ite (raise ⟨nofun, nofun, nofun, nofun⟩) (of_running hr)⟩
  | pop a =>
    refine ⟨_, rfl, ?_⟩
    cases s.topWord with
    | none => exact raise ⟨nofun, nofun, nofun, nofun⟩
    | some v => exact withTgt hs rfl fun _ => of_running hr
  | ret =>
    refine ⟨_, rfl, ?_⟩
    cases s.topWord with
    | none => exact haltNormal
    | some v => exact of_running hr
  | rmem a b =>
    refine ⟨_, rfl, withVal hs rfl fun x => ?_⟩
    obtain ⟨-, he⟩ | ⟨-, he⟩ := memRead_cases s x.toNat
    · rw [he]
      exact withTgt hs rfl fun _ => of_running hr
    · rw [he]
      exact raise ⟨nofun, nofun, nofun, fun _ => .inl ⟨a, b, rfl⟩⟩
  | wmem a b =>
    refine ⟨_, rfl, withVal hs rfl fun x => withVal hs rfl fun w => ?_⟩
    obtain ⟨-, he⟩ | ⟨-, he⟩ := memWrite_cases s x.toNat w
    · rw [he]
      exact of_running hr
    · rw [he]
      exact raise ⟨nofun, nofun, nofun, fun _ => .inr ⟨a, b, rfl⟩⟩
  | out a =>
    exact ⟨_, rfl, withVal hs rfl fun _ => ite (of_running hr) (of_running hr)⟩
  | inp a =>
    cases ho : s.offered with
    | nil => exact ⟨_, execInp_nil a ho, ite haltCancelled (of_running hr)⟩
    | cons b rest =>
      exact ⟨_, execInp_cons a ho,
        ite (ite (receive (s := s.countTie) hs hr) haltCancelled) (receive hs hr)⟩

end State.FaultsOnlyBy

end Sys2Proof.Machine

open Sys2Proof Sys2Proof.Machine

/-- Settles O57, by `State.FaultsOnlyBy.exec_next`. -/
theorem legalOperandsNeverFault : Obligations.LegalOperandsNeverFault := by
  intro i s t f hlegal hlen hr h ht
  obtain ⟨t', ht', hown⟩ := State.FaultsOnlyBy.exec_next ⟨hlegal, hlen⟩ hr
  obtain rfl : t' = t := by simpa [ht'] using h
  exact hown f ht
end

section
/-! SUPPORT. The engine's cycle and the operand fetch (40_engine_and_operands.md R80 to R86): what a
fetching turn runs, and why an operand word past the top of memory has no effect. -/

namespace Sys2Proof.Machine

variable {s : State} {i : Instr} {o o' a a' b b' c c' : Operand}

/-- What decodes from the window at `ip` is the instruction dispatched there. -/
theorem atIp_of_decode_window {rest : List Word} (h : decode s.window = .ok (i, rest)) :
    s.atIp = some i :=
  (decode_cons_eq_ok_iff.mp h).1

/-- A fetching turn with a decodable instruction inside memory runs that instruction. -/
theorem cycle_runs (hf : s.Fetches) (hp : s.ip.toNat ≤ 32767) (hi : s.atIp = some i) :
    s.cycle = exec i s := by
  rw [cycle_of_fetches hf, fetchAndRun_in hp, hi]

/-! ## Operand words past the top of memory (R85, R86; log 30) -/

/-- `o` and `o'` are the same operand if the word at position `p` lies in memory. -/
def State.SameIfFetched (s : State) (p : Nat) (o o' : Operand) : Prop :=
  s.ip.toNat + p ≤ 32767 → o = o'

theorem exists_fetchFault {p : Nat} (hp : 32767 < s.ip.toNat + p) : ∃ f, s.fetchFault p = some f :=
  ⟨_, if_pos hp⟩

/-- The fetch of an operand word faults before its value is looked at. -/
theorem valueFault_of_fetchFault {p : Nat} {f : FaultRecord} (h : s.fetchFault p = some f)
    (o : Operand) : s.valueFault p o = some f := by
  unfold State.valueFault
  rw [h, Option.some_or]

/-- The fetch of a target's word faults before its kind is looked at. -/
theorem targetFault_of_fetchFault {f : FaultRecord} (h : s.fetchFault 1 = some f) (o : Operand) :
    s.targetFault o = some f := by
  unfold State.targetFault
  rw [h, Option.some_or]

theorem State.SameIfFetched.withVal {p : Nat} {k k' : Word → State} (h : s.SameIfFetched p o o')
    (hk : ∀ v, k v = k' v) : s.withVal p o k = s.withVal p o' k' := by
  obtain rfl : k = k' := funext hk
  by_cases hp : s.ip.toNat + p ≤ 32767
  · rw [h hp]
  · obtain ⟨f, hf⟩ := exists_fetchFault (not_le.mp hp)
    rw [withVal_of_fault (valueFault_of_fetchFault hf o),
      withVal_of_fault (valueFault_of_fetchFault hf o')]

theorem State.SameIfFetched.withTgt (h : s.SameIfFetched 1 o o') (v : Word) (k : State → State) :
    s.withTgt o v k = s.withTgt o' v k := by
  by_cases hp : s.ip.toNat + 1 ≤ 32767
  · rw [h hp]
  · obtain ⟨f, hf⟩ := exists_fetchFault (not_le.mp hp)
    rw [withTgt_of_fault (targetFault_of_fetchFault hf o),
      withTgt_of_fault (targetFault_of_fetchFault hf o')]

theorem State.SameIfFetched.binaryRule (ha : s.SameIfFetched 1 a a') (hb : s.SameIfFetched 2 b b')
    (hc : s.SameIfFetched 3 c c') (f : Word → Word → Word) :
    s.binaryRule f a b c = s.binaryRule f a' b' c' :=
  hb.withVal fun _ => hc.withVal fun _ => ha.withTgt _ _

theorem State.SameIfFetched.unaryRule (ha : s.SameIfFetched 1 a a') (hb : s.SameIfFetched 2 b b')
    (f : Word → Word) : s.unaryRule f a b = s.unaryRule f a' b' :=
  hb.withVal fun _ => ha.withTgt _ _

/-- Taking a byte does not move `ip`, so the target of `in` is fetched or not as before. -/
theorem State.SameIfFetched.receive (ha : s.SameIfFetched 1 a a') (b : Byte) (rest : List Byte) :
    s.receive a b rest = s.receive a' b rest :=
  State.SameIfFetched.withTgt (s := s.takeByte rest) ha _ _

theorem State.SameIfFetched.execInp (ha : s.SameIfFetched 1 a a') : execInp a s = execInp a' s := by
  cases ho : s.offered with
  | nil => rw [execInp_nil a ho, execInp_nil a' ho]
  | cons b rest =>
    have htie : s.countTie.SameIfFetched 1 a a' := ha
    rw [execInp_cons a ho, execInp_cons a' ho, ha.receive, htie.receive]

/-- An instruction with the operands `a`, `b`, `c`, as many as it has, means the same as what its opcode
and other operand words decode to, if the operands are the same where they are fetched: every rule
reaches its operands through `withVal` and `withTgt`. -/
theorem exec_eq_of_sameIfFetched {i' : Instr} {wa wb wc : Word}
    (hops : i.shape.map Prod.snd = [a, b, c].take i.shape.length)
    (h' : decodeOp (BitVec.ofNat 16 i.opcode) wa wb wc = some i')
    (ha : s.SameIfFetched 1 a (.ofWord wa)) (hb : s.SameIfFetched 2 b (.ofWord wb))
    (hc : s.SameIfFetched 3 c (.ofWord wc)) : exec i s = exec i' s := by
  cases i with
  | halt | ret | nop =>
    cases h'
    rfl
  | set | not =>
    cases hops
    cases h'
    exact congrArg _ (ha.unaryRule hb _)
  | eq | gt | add | mult | and | or =>
    cases hops
    cases h'
    exact congrArg _ (ha.binaryRule hb hc _)
  | mod =>
    cases hops
    cases h'
    refine congrArg _ (hb.withVal fun x => hc.withVal fun y => ?_)
    rw [ha.withTgt]
  | push | jmp | call | out =>
    cases hops
    cases h'
    exact congrArg _ (ha.withVal fun _ => rfl)
  | jt | jf | wmem =>
    cases hops
    cases h'
    exact congrArg _ (ha.withVal fun _ => hb.withVal fun _ => rfl)
  | pop =>
    cases hops
    cases h'
    refine congrArg Host.Outcome.next ?_
    cases s.topWord with
    | none => rfl
    | some v => exact ha.withTgt v _
  | rmem =>
    cases hops
    cases h'
    refine congrArg _ (hb.withVal fun x => ?_)
    cases s.memRead x.toNat with
    | error f => rfl
    | ok w => exact ha.withTgt w _
  | inp =>
    cases hops
    cases h'
    exact ha.execInp

end Sys2Proof.Machine

open Sys2Proof Sys2Proof.Machine

/-- Settles O34: an operand past the top of memory faults at its fetch, whatever its word. -/
theorem wordsPastTheTopAreNeverUsed : Obligations.WordsPastTheTopAreNeverUsed := by
  intro s op wa wb wc wa' wb' wc' i i' h h' ha hb hc
  obtain ⟨rfl, hops⟩ := decodeOp_eq_some_iff.mp h
  exact exec_eq_of_sameIfFetched (hops.trans List.map_take) h' (congrArg _ ∘ ha) (congrArg _ ∘ hb)
    (congrArg _ ∘ hc)

/-- Settles O48: a Halted core does not run, so the engine's turn changes nothing (R90), and the other
agents write fields of the boundary only. -/
theorem haltedCoreIsInert : Obligations.HaltedCoreIsInert := by
  intro s t hhalt hstep
  obtain ⟨t0, hm⟩ := step_move hstep
  obtain ⟨rest, n, rfl⟩ := hm.frame
  cases hm with
  | turn _ _ ht =>
    obtain rfl | hr := ht.eq_or_running
    · exact ⟨rfl, rfl, rfl, rfl, rfl, rfl, rfl, rfl, rfl⟩
    · exact absurd hr (run_ne_running_of_halted hhalt)
  | started _ hr =>
    have hidle : s.run = .idle := hr
    rw [hidle] at hhalt
    cases hhalt
  | latched | tookResult | offered | sinkSet => exact ⟨rfl, rfl, rfl, rfl, rfl, rfl, rfl, rfl, rfl⟩

/-- Settles O27: striking off the engine's move leaves `ip` and memory, so the window of `s` is the one
the cycle decodes. -/
theorem stepRunsTheDecodedInstruction : Obligations.StepRunsTheDecodedInstruction := by
  intro s t i rest hm hf hp hdec
  rw [step_of_engineMoves hm]
  have hft := fetches_of_engineMoves hm hf
  obtain ⟨_, _, rfl⟩ := movesBy_frame hm
  exact cycle_runs hft hp (atIp_of_decode_window hdec)

/-- Settles O28, by `fetchAndRun_above`. -/
theorem opcodeFetchAboveTopFaults : Obligations.OpcodeFetchAboveTopFaults := by
  intro s t hm hf hp
  rw [step_of_engineMoves hm, cycle_of_fetches (fetches_of_engineMoves hm hf)]
  obtain ⟨_, _, rfl⟩ := movesBy_frame hm
  exact fetchAndRun_above hp

/-- Settles O30: the cancellation check comes before the fetch (`cycle_cancelled`). -/
theorem raisedLatchEndsRunAtTopOfCycle : Obligations.RaisedLatchEndsRunAtTopOfCycle := by
  intro s t hm hr hp hc
  rw [step_of_engineMoves hm]
  obtain ⟨_, _, rfl⟩ := movesBy_frame hm
  exact cycle_cancelled hr hp hc
end

section
/-! SUPPORT. Faults in the order in which a rule meets them (40_engine_and_operands.md R88), and the
rules of `set`, `push` and `pop` (41_data_movement.md R100 to R102). -/

namespace Sys2Proof.Machine

variable {s : State} {o : Operand} {p : Nat} {fr : FaultRecord} {fs : List (Option FaultRecord)}

/-- The first of several faults is the first one, or, if there is none, the first of the others. -/
theorem firstFault_cons_eq_some {f : Option FaultRecord} :
    firstFault (f :: fs) = some fr ↔ f = some fr ∨ f = none ∧ firstFault fs = some fr := by
  cases f <;> simp [firstFault]

theorem firstFault_singleton (f : Option FaultRecord) : firstFault [f] = f := by
  cases f <;> rfl

/-- A rule that goes on from a value takes the first fault of value and continuation, if the
continuation takes the first one of its own. -/
theorem withVal_of_firstFault {k : Word → State}
    (h : firstFault (s.valueFault p o :: fs) = some fr)
    (hk : ∀ v, s.worth o = some v → firstFault fs = some fr → k v = s.faulted fr) :
    s.withVal p o k = s.faulted fr := by
  obtain hf | ⟨hnone, hrest⟩ := firstFault_cons_eq_some.mp h
  · exact withVal_of_fault hf k
  · obtain ⟨hp, v, hv⟩ := valueFault_eq_none.mp hnone
    rw [withVal_of_worth hp hv]
    exact hk v hv hrest

/-- A rule that ends with its target takes the target's fault. -/
theorem withTgt_of_firstFault (h : firstFault [s.targetFault o] = some fr) (v : Word)
    (k : State → State) : s.withTgt o v k = s.faulted fr :=
  withTgt_of_fault ((firstFault_singleton _).symm.trans h) v k

/-! ## One value and a target -/

theorem unaryRule_of_worth {f : Word → Word} {r : RegIdx} {b : Operand} {x : Word}
    (hp : s.ip.toNat + 2 ≤ 32767) (hb : s.worth b = some x) :
    s.unaryRule f (.reg r) b = (s.setReg r (f x)).advance 3 := by
  unfold State.unaryRule
  rw [withVal_of_worth hp hb, withTgt_reg (by omega)]

theorem unaryRule_of_firstFault {f : Word → Word} {a b : Operand}
    (h : firstFault [s.valueFault 2 b, s.targetFault a] = some fr) :
    s.unaryRule f a b = s.faulted fr :=
  withVal_of_firstFault h fun _ _ ht => withTgt_of_firstFault ht _ _

/-- An instruction executed by `State.unaryRule` keeps the rule of format F2 with a target. -/
theorem twoOperandRule_of_unaryRule {opcode : Word} {mk : Operand → Operand → Instr}
    {f : Nat → Nat} {g : Word → Word}
    (henc : ∀ a b, encode (mk a b) = [opcode, a.toWord, b.toWord])
    (hexec : ∀ a b s, exec (mk a b) s = .next (s.unaryRule g a b))
    (hg : ∀ x, g x = BitVec.ofNat 16 (f x.toNat)) : Claims.TwoOperandRule opcode mk f := by
  refine fun s a b => ⟨henc a b, ?_, fun fr hf => ?_⟩
  · rintro r x hp rfl hb
    rw [hexec, unaryRule_of_worth hp hb, hg]
    rfl
  · rw [hexec, unaryRule_of_firstFault hf]

/-! ## The stack's own faults -/

theorem overflowFault_eq : s.overflowFault =
    if s.stackFull = true then some (s.record .stackOverflow none none) else none := by
  unfold State.overflowFault State.stackFull
  cases s.stackCap with
  | none => rfl
  | some n => simp only [decide_eq_true_eq]

/-- With room on the stack, the capacity check of `push` and `call` goes on. -/
theorem pushCheck_of_room (h : s.overflowFault = none) (t : State) :
    (if s.stackFull then s.raise stackOverflowInfo else t) = t := by
  have hroom : ¬ s.stackFull = true := by simpa [overflowFault_eq] using h
  exact if_neg hroom

/-- On a full stack, the capacity check of `push` and `call` takes its fault. -/
theorem pushCheck_of_fault (h : s.overflowFault = some fr) (t : State) :
    (if s.stackFull then s.raise stackOverflowInfo else t) = s.faulted fr := by
  rw [overflowFault_eq] at h
  obtain ⟨hfull, ⟨⟩⟩ := Option.ite_none_right_eq_some.mp h
  exact if_pos hfull

/-- `pop` on an empty stack: the target is not looked at. -/
theorem execPop_nil (a : Operand) (h : s.stack = []) :
    execPop a s = .next (s.raise stackUnderflowInfo) := by
  unfold execPop State.topWord
  rw [h]
  rfl

/-- `pop` with a top entry: it goes to the target, and the stack loses it if the target takes it. -/
theorem execPop_concat (a : Operand) {below : List Word} {x : Word} (h : s.stack = below ++ [x]) :
    execPop a s = .next (s.withTgt a x fun t => t.dropWord.advance 2) := by
  unfold execPop State.topWord
  rw [h, List.getLast?_concat]

theorem execPop_of_firstFault {a : Operand}
    (h : firstFault [s.underflowFault, s.targetFault a] = some fr) :
    execPop a s = .next (s.faulted fr) := by
  obtain hf | ⟨hnone, ht⟩ := firstFault_cons_eq_some.mp h
  · obtain ⟨hempty, ⟨⟩⟩ := Option.ite_none_right_eq_some.mp hf
    exact execPop_nil a hempty
  · have hne : s.stack ≠ [] := by simpa [State.underflowFault] using hnone
    rw [execPop_concat a (List.dropLast_append_getLast hne).symm, withTgt_of_firstFault ht]

end Sys2Proof.Machine

open Sys2Proof Sys2Proof.Machine

/-- Settles O4: `set` is the unary rule of the identity. -/
theorem setCopiesValueToRegister : Obligations.SetCopiesValueToRegister :=
  twoOperandRule_of_unaryRule (fun _ _ => rfl) (fun _ _ _ => rfl) fun _ => by simp

/-- Settles O5: the value, then the capacity check, then the push. -/
theorem pushAppendsValueToStack : Obligations.PushAppendsValueToStack := by
  refine fun s a => ⟨fun x hp hx hroom => ?_, fun fr hf => ?_⟩
  · exact congrArg _ ((withVal_of_worth hp hx _).trans (pushCheck_of_room hroom _))
  · exact congrArg _ (withVal_of_firstFault hf fun _ _ h =>
      pushCheck_of_fault ((firstFault_singleton _).symm.trans h) _)

/-- Settles O6: the stack is looked at before the target, and loses its top entry after it. -/
theorem popMovesTopEntryToRegister : Obligations.PopMovesTopEntryToRegister := by
  refine fun s a => ⟨?_, fun fr => execPop_of_firstFault⟩
  rintro r x below hp rfl hstack
  calc exec (.pop (.reg r)) s
      = .next ((s.setReg r x).dropWord.advance 2) := by
        rw [← withTgt_reg hp x fun t => t.dropWord.advance 2]
        exact execPop_concat _ hstack
    _ = _ := by
        simp [State.dropWord, State.retire, State.setReg, hstack]
end

section
/-! SUPPORT. Two values and a target (format F3), and the rules of `eq` and `gt`
(42_comparison.md R110, R111). -/

namespace Sys2Proof.Machine

variable {s : State} {fr : FaultRecord}

theorem binaryRule_of_worth {f : Word → Word → Word} {r : RegIdx} {b c : Operand} {x y : Word}
    (hp : s.ip.toNat + 3 ≤ 32767) (hb : s.worth b = some x) (hc : s.worth c = some y) :
    s.binaryRule f (.reg r) b c = (s.setReg r (f x y)).advance 4 := by
  unfold State.binaryRule
  rw [withVal_of_worth (by omega) hb, withVal_of_worth hp hc, withTgt_reg (by omega)]

theorem binaryRule_of_firstFault {f : Word → Word → Word} {a b c : Operand}
    (h : firstFault [s.valueFault 2 b, s.valueFault 3 c, s.targetFault a] = some fr) :
    s.binaryRule f a b c = s.faulted fr :=
  withVal_of_firstFault h fun _ _ hrest => withVal_of_firstFault hrest fun _ _ ht =>
    withTgt_of_firstFault ht _ _

/-- An instruction executed by `State.binaryRule` keeps the rule of format F3. -/
theorem threeOperandRule_of_binaryRule {opcode : Word} {mk : Operand → Operand → Operand → Instr}
    {f : Nat → Nat → Nat} {g : Word → Word → Word}
    (henc : ∀ a b c, encode (mk a b c) = [opcode, a.toWord, b.toWord, c.toWord])
    (hexec : ∀ a b c s, exec (mk a b c) s = .next (s.binaryRule g a b c))
    (hg : ∀ x y, g x y = BitVec.ofNat 16 (f x.toNat y.toNat)) :
    Claims.ThreeOperandRule opcode mk f := by
  refine fun s a b c => ⟨henc a b c, ?_, fun fr hf => ?_⟩
  · rintro r x y hp rfl hb hc
    rw [hexec, binaryRule_of_worth hp hb hc, hg]
    rfl
  · rw [hexec, binaryRule_of_firstFault hf]

/-- A truth value as a word is the word of the number 1 or 0. -/
theorem truthWord_decide (p : Prop) [Decidable p] :
    truthWord (decide p) = BitVec.ofNat 16 (if p then 1 else 0) := by
  by_cases hp : p <;> simp [truthWord, hp]

/-- Two words are equal exactly when their numbers are. -/
theorem eqWord_eq_ofNat (x y : Word) :
    eqWord x y = BitVec.ofNat 16 (if x.toNat = y.toNat then 1 else 0) := by
  simp only [eqWord, truthWord_decide, BitVec.toNat_inj]

theorem gtWord_eq_ofNat (x y : Word) :
    gtWord x y = BitVec.ofNat 16 (if y.toNat < x.toNat then 1 else 0) :=
  truthWord_decide _

end Sys2Proof.Machine

open Sys2Proof Sys2Proof.Machine

/-- Settles O7: `eq` is the binary rule of `eqWord`. -/
theorem eqWritesOneExactlyWhenEqual : Obligations.EqWritesOneExactlyWhenEqual :=
  threeOperandRule_of_binaryRule (fun _ _ _ => rfl) (fun _ _ _ _ => rfl) eqWord_eq_ofNat

/-- Settles O8: `gt` is the binary rule of `gtWord`. -/
theorem gtWritesOneExactlyWhenGreater : Obligations.GtWritesOneExactlyWhenGreater :=
  threeOperandRule_of_binaryRule (fun _ _ _ => rfl) (fun _ _ _ _ => rfl) gtWord_eq_ofNat
end

section
/-! SUPPORT. Two values and a choice of where to go on, and the rules of `jmp`, `jt`, `jf`, `call` and
`ret` (43_control_transfer.md R120 to R125). -/

namespace Sys2Proof.Machine

variable {s : State}

/-- An instruction that resolves two values, whether or not it then jumps (decision D5), and goes on at
the second one exactly when `taken` holds of the first, keeps the rule of a conditional jump. -/
theorem conditionalJumpRule_of_withVal {opcode : Word} {mk : Operand → Operand → Instr}
    {taken : Nat → Bool} {k : State → Word → Word → State}
    (henc : ∀ a b, encode (mk a b) = [opcode, a.toWord, b.toWord])
    (hexec : ∀ a b s, exec (mk a b) s =
      .next (s.withVal 1 a fun x => s.withVal 2 b fun t => k s x t))
    (hk : ∀ s x t, k s x t = s.retire (if taken x.toNat then t else s.ip + 3)) :
    Claims.ConditionalJumpRule opcode mk taken := by
  refine fun s a b => ⟨henc a b, fun x t hp hx ht => ?_, fun fr hf => ?_⟩
  · rw [hexec, withVal_of_worth (by omega) hx, withVal_of_worth hp ht, hk]
    rfl
  · rw [hexec]
    exact congrArg _ (withVal_of_firstFault hf fun _ _ hb =>
      withVal_of_fault ((firstFault_singleton _).symm.trans hb) _)

theorem nonZero_eq_toNat_bne (x : Word) : nonZero x = (x.toNat != 0) := by
  rw [Bool.eq_iff_iff]
  simp [nonZero, ← BitVec.toNat_inj]

/-- Jumping or falling through differ in the next `ip` only. -/
theorem retire_ite (c : Bool) (u v : Word) :
    (if c then s.retire u else s.retire v) = s.retire (if c then u else v) :=
  (apply_ite s.retire (c = true) u v).symm

/-- `ret` on an empty stack ends the run. -/
theorem execRet_nil (h : s.stack = []) : execRet s = .next s.endedNormally := by
  unfold execRet State.topWord
  rw [h]
  rfl

/-- `ret` with a top entry goes on there, and the stack loses it. -/
theorem execRet_concat {below : List Word} {t : Word} (h : s.stack = below ++ [t]) :
    execRet s = .next (s.dropWord.retire t) := by
  unfold execRet State.topWord
  rw [h, List.getLast?_concat]

end Sys2Proof.Machine

open Sys2Proof Sys2Proof.Machine

/-- Settles O9: one value, accepted into `ip` unchecked. -/
theorem jmpSetsIpToValue : Obligations.JmpSetsIpToValue :=
  fun _ _ => ⟨fun _ hp ht => congrArg _ (withVal_of_worth hp ht _),
    fun _ hf => congrArg _ (withVal_of_fault hf _)⟩

/-- Settles O10: the whole first word is compared with zero. -/
theorem jtJumpsExactlyWhenNonZero : Obligations.JtJumpsExactlyWhenNonZero := by
  refine conditionalJumpRule_of_withVal (fun _ _ => rfl) (fun _ _ _ => rfl) fun s x t => ?_
  rw [advance_eq, retire_ite, nonZero_eq_toNat_bne]
  rfl

/-- Settles O11: `jf` is `jt` with the two ways to go on exchanged. -/
theorem jfJumpsExactlyWhenZero : Obligations.JfJumpsExactlyWhenZero := by
  refine conditionalJumpRule_of_withVal (fun _ _ => rfl) (fun _ _ _ => rfl) fun s x t => ?_
  rw [advance_eq, retire_ite, nonZero_eq_toNat_bne]
  by_cases hx : x.toNat = 0 <;> simp [hx]

/-- Settles O20: the value, then the capacity check, then the push and the jump. -/
theorem callPushesReturnAddressAndJumps : Obligations.CallPushesReturnAddressAndJumps := by
  refine fun s a => ⟨fun t hp ht hroom => ?_, fun fr hf => ?_⟩
  · rw [← ip_add_ofNat]
    exact congrArg _ ((withVal_of_worth hp ht _).trans (pushCheck_of_room hroom _))
  · exact congrArg _ (withVal_of_firstFault hf fun _ _ h =>
      pushCheck_of_fault ((firstFault_singleton _).symm.trans h) _)

/-- Settles O21: `ret` looks at the top of the stack only. -/
theorem retPopsIpOrHaltsNormally : Obligations.RetPopsIpOrHaltsNormally := by
  refine fun s => ⟨fun t below hstack => (execRet_concat hstack).trans ?_, execRet_nil⟩
  simp [State.dropWord, State.retire, hstack]
end

section
/-! SUPPORT. The complement masked to 15 bits as a number, the divisor of `mod`, and the rules of `add`,
`mult`, `mod`, `and`, `or` and `not` (44_arithmetic_logic.md R130 to R137). -/

namespace Sys2Proof.Machine

variable {s : State} {fr : FaultRecord} {c : Operand}

/-- The mask `0x7FFF` of R135 is a remainder, and the complement a difference. -/
theorem notWord_eq_ofNat (x : Word) : notWord x = BitVec.ofNat 16 (32767 - x.toNat % 32768) := by
  have hx : x.toNat < 65536 := x.isLt
  have hmask : (notWord x).toNat = (65535 - x.toNat) % 32768 := by
    rw [notWord, BitVec.toNat_and, BitVec.toNat_not]
    exact Nat.and_two_pow_sub_one_eq_mod _ 15
  apply BitVec.eq_of_toNat_eq
  rw [hmask, BitVec.toNat_ofNat]
  omega

/-! ## The divisor of `mod` (R132) -/

/-- A divisor that raises a fault is worth 0, and the fault is the one `mod` takes. -/
theorem raise_of_divisorFault (h : s.divisorFault c = some fr) :
    s.worth c = some 0 ∧ s.raise (divisionByZeroInfo s) = s.faulted fr := by
  obtain ⟨hzero, ⟨⟩⟩ := Option.ite_none_right_eq_some.mp h
  refine ⟨hzero, ?_⟩
  rw [← ip_add_ofNat]
  rfl

/-- A divisor raises DivisionByZero exactly when it is worth 0. -/
theorem divisorFault_eq_none : s.divisorFault c = none ↔ s.worth c ≠ some 0 := by
  simp [State.divisorFault]

theorem execMod_of_worth {r : RegIdx} {b : Operand} {x y : Word} (hp : s.ip.toNat + 3 ≤ 32767)
    (hb : s.worth b = some x) (hc : s.worth c = some y) (hy : y ≠ 0) :
    execMod (.reg r) b c s = .next ((s.setReg r (modWord x y)).advance 4) := by
  unfold execMod
  rw [withVal_of_worth (by omega) hb, withVal_of_worth hp hc, if_neg hy, withTgt_reg (by omega)]

theorem execMod_of_firstFault {a b : Operand}
    (h : firstFault [s.valueFault 2 b, s.valueFault 3 c, s.divisorFault c, s.targetFault a] =
      some fr) : execMod a b c s = .next (s.faulted fr) := by
  refine congrArg _ (withVal_of_firstFault h fun _ _ hrest =>
    withVal_of_firstFault hrest fun y hc hdiv => ?_)
  obtain hf | ⟨hnone, ht⟩ := firstFault_cons_eq_some.mp hdiv
  · obtain ⟨hzero, hraise⟩ := raise_of_divisorFault hf
    rw [if_pos (Option.some.inj (hc.symm.trans hzero)), hraise]
  · have hy : y ≠ 0 := by
      rintro rfl
      exact divisorFault_eq_none.mp hnone hc
    rw [if_neg hy, withTgt_of_firstFault ht]

end Sys2Proof.Machine

open Sys2Proof Sys2Proof.Machine

/-- Settles O12: `add` is the binary rule of `addWord`, which reduces the exact sum once. -/
theorem addWritesSumModulo32768 : Obligations.AddWritesSumModulo32768 :=
  threeOperandRule_of_binaryRule (fun _ _ _ => rfl) (fun _ _ _ _ => rfl) fun _ _ => rfl

/-- Settles O13: `mult` is the binary rule of `multWord`, which reduces the exact product once. -/
theorem multWritesProductModulo32768 : Obligations.MultWritesProductModulo32768 :=
  threeOperandRule_of_binaryRule (fun _ _ _ => rfl) (fun _ _ _ _ => rfl) fun _ _ => rfl

/-- Settles O14: the divisor is examined after both values and before the target. -/
theorem modWritesRemainderOrFaultsOnZero : Obligations.ModWritesRemainderOrFaultsOnZero := by
  refine fun s a b c => ⟨rfl, ?_, fun fr => execMod_of_firstFault⟩
  rintro r x y hp rfl hb hc hy
  exact execMod_of_worth hp hb hc hy

/-- Settles O15: `and` is the binary rule of the words' bitwise and. -/
theorem andWritesBitwiseAnd : Obligations.AndWritesBitwiseAnd :=
  threeOperandRule_of_binaryRule (fun _ _ _ => rfl) (fun _ _ _ _ => rfl) fun _ _ => by
    simp only [BitVec.ofNat_and, BitVec.ofNat_toNat, BitVec.setWidth_eq]

/-- Settles O16: `or` is the binary rule of the words' bitwise or. -/
theorem orWritesBitwiseOr : Obligations.OrWritesBitwiseOr :=
  threeOperandRule_of_binaryRule (fun _ _ _ => rfl) (fun _ _ _ _ => rfl) fun _ _ => by
    simp only [BitVec.ofNat_or, BitVec.ofNat_toNat, BitVec.setWidth_eq]

/-- Settles O17: `not` is the unary rule of `notWord`. -/
theorem notWritesFifteenBitComplement : Obligations.NotWritesFifteenBitComplement :=
  twoOperandRule_of_unaryRule (fun _ _ => rfl) (fun _ _ _ => rfl) notWord_eq_ofNat
end

section
/-! SUPPORT. The fault of a data access (60_exceptions.md R187), and the rules of `rmem` and `wmem`
(45_memory_access.md R140 to R142). -/

namespace Sys2Proof.Machine

variable {s : State} {o a b : Operand} {x w : Word} {fr : FaultRecord}

theorem addressFault_of_worth (hx : s.worth o = some x) : s.addressFault o =
    if 32767 < x.toNat then some (s.record .addressOutOfRange (some x) none) else none := by
  unfold State.addressFault
  rw [hx]

/-- The address fault of an operand is the out-of-range fault of the address it is worth. -/
theorem raise_of_addressFault (hx : s.worth o = some x) (h : s.addressFault o = some fr) :
    32767 < x.toNat ∧ s.raise (outOfRange x.toNat) = s.faulted fr := by
  rw [addressFault_of_worth hx] at h
  obtain ⟨hlt, ⟨⟩⟩ := Option.ite_none_right_eq_some.mp h
  refine ⟨hlt, ?_⟩
  rw [raise_eq_faulted, outOfRange, BitVec.ofNat_toNat, BitVec.setWidth_eq]

/-- Without an address fault, the address an operand is worth is one of memory's. -/
theorem le_of_addressFault_eq_none (hx : s.worth o = some x) (h : s.addressFault o = none) :
    x.toNat ≤ 32767 := by
  simpa [addressFault_of_worth hx] using h

theorem memRead_of_le {n : Nat} (h : n ≤ 32767) : s.memRead n = .ok (s.mem.get n) :=
  ((memRead_cases s n).resolve_right fun hgt => Nat.not_lt.mpr h hgt.1).2

theorem memRead_of_gt {n : Nat} (h : 32767 < n) : s.memRead n = .error (outOfRange n) :=
  ((memRead_cases s n).resolve_left fun hle => Nat.not_le.mpr h hle.1).2

theorem memWrite_of_le {n : Nat} (h : n ≤ 32767) (w : Word) :
    s.memWrite n w = .ok { s with mem := s.mem.set n w } :=
  ((memWrite_cases s n w).resolve_right fun hgt => Nat.not_lt.mpr h hgt.1).2

theorem memWrite_of_gt {n : Nat} (h : 32767 < n) (w : Word) :
    s.memWrite n w = .error (outOfRange n) :=
  ((memWrite_cases s n w).resolve_left fun hle => Nat.not_le.mpr h hle.1).2

/-- `rmem` at an address of memory goes on to its target with the raw word there. -/
theorem execRmem_of_worth (a : Operand) (hp : s.ip.toNat + 2 ≤ 32767) (hb : s.worth b = some x)
    (hx : x.toNat ≤ 32767) :
    execRmem a b s = .next (s.withTgt a (s.mem.get x.toNat) fun t => t.advance 3) := by
  unfold execRmem
  rw [withVal_of_worth hp hb, memRead_of_le hx]

theorem execRmem_of_firstFault
    (h : firstFault [s.valueFault 2 b, s.addressFault b, s.targetFault a] = some fr) :
    execRmem a b s = .next (s.faulted fr) := by
  refine congrArg _ (withVal_of_firstFault h fun x hb hrest => ?_)
  obtain hf | ⟨hnone, ht⟩ := firstFault_cons_eq_some.mp hrest
  · obtain ⟨hx, hraise⟩ := raise_of_addressFault hb hf
    rw [memRead_of_gt hx]
    exact hraise
  · rw [memRead_of_le (le_of_addressFault_eq_none hb hnone)]
    exact withTgt_of_firstFault ht _ _

/-- `wmem` at an address of memory stores the raw word there. -/
theorem execWmem_of_worth (hp : s.ip.toNat + 2 ≤ 32767) (ha : s.worth a = some x)
    (hb : s.worth b = some w) (hx : x.toNat ≤ 32767) :
    execWmem a b s = .next (({ s with mem := s.mem.set x.toNat w } : State).advance 3) := by
  unfold execWmem
  rw [withVal_of_worth (by omega) ha, withVal_of_worth hp hb, memWrite_of_le hx]

theorem execWmem_of_firstFault
    (h : firstFault [s.valueFault 1 a, s.valueFault 2 b, s.addressFault a] = some fr) :
    execWmem a b s = .next (s.faulted fr) := by
  refine congrArg _ (withVal_of_firstFault h fun x ha hrest =>
    withVal_of_firstFault hrest fun w _ haddr => ?_)
  obtain ⟨hx, hraise⟩ := raise_of_addressFault ha ((firstFault_singleton _).symm.trans haddr)
  rw [memWrite_of_gt hx]
  exact hraise

end Sys2Proof.Machine

open Sys2Proof Sys2Proof.Machine

/-- Settles O18: the address is examined between the value and the target. -/
theorem rmemLoadsRawWord : Obligations.RmemLoadsRawWord := by
  refine fun s a b => ⟨?_, fun fr => execRmem_of_firstFault⟩
  rintro r x hp rfl hb hx
  calc exec (.rmem (.reg r) b) s
      = .next (s.withTgt (.reg r) (s.mem.get x.toNat) fun t => t.advance 3) :=
        execRmem_of_worth _ hp hb hx
    _ = .next ((s.setReg r (s.mem.get x.toNat)).advance 3) := by
        rw [withTgt_reg (by omega)]

/-- Settles O19: the memory after the store is `Memory.set`, whose reads O38 gives and whose form O39. -/
theorem wmemStoresRawWord : Obligations.WmemStoresRawWord := by
  refine fun s a b => ⟨fun x w hp ha hb hx hwf => ?_, fun fr => execWmem_of_firstFault⟩
  refine ⟨s.mem.set x.toNat w, execWmem_of_worth hp ha hb hx,
    memoryWriteKeepsCanonicalForm _ _ _ hwf hx, fun y => ?_⟩
  rw [memoryReadsWhatWasLastWritten _ _ _ _ hwf]
  simp only [eq_comm]
end

section
/-! SUPPORT. The rules of `halt`, `out`, `in` and `nop` (46_system_io.md R150 to R153), the channels under
one instruction (R154), and the cancel latch, which only `in` observes. -/

namespace Sys2Proof.Machine

variable {i : Instr} {s t : State} {a : Operand} {b : Byte} {rest : List Byte} {fr : FaultRecord}

/-! ## The byte that `in` takes (R152) -/

/-- The byte on offer goes to a target register, zero-extended. -/
theorem receive_reg {r : RegIdx} (hp : s.ip.toNat + 1 ≤ 32767) : s.receive (.reg r) b rest =
    ((s.takeByte rest).setReg r (BitVec.ofNat 16 b.toNat)).advance 2 := by
  rw [BitVec.ofNat_toNat]
  exact withTgt_reg (s := s.takeByte rest) hp _ _

/-- The byte stays taken when the target faults (decision D7). -/
theorem receive_of_targetFault (h : s.targetFault a = some fr) :
    s.receive a b rest = (s.takeByte rest).faulted fr :=
  withTgt_of_fault (s := s.takeByte rest) h _ _

/-- `in` takes the byte on offer when the latch is lowered. -/
theorem execInp_of_lowered (a : Operand) (ho : s.offered = b :: rest) (hc : s.cancel = false) :
    execInp a s = .next (s.receive a b rest) := by
  rw [execInp_cons a ho, hc]
  rfl

/-- `in` with a byte on offer and the latch raised: the free choice of decision D15. -/
theorem execInp_of_tie (a : Operand) (ho : s.offered = b :: rest) (hc : s.cancel = true) :
    execInp a s = .next (if Config.tieTakesByte s.ties then s.countTie.receive a b rest
      else s.countTie.endedCancelled) := by
  rw [execInp_cons a ho, hc]
  rfl

/-- Without a byte, a raised latch ends the run. -/
theorem execInp_of_cancelled (a : Operand) (ho : s.offered = []) (hc : s.cancel = true) :
    execInp a s = .next s.endedCancelled := by
  rw [execInp_nil a ho, hc]
  rfl

/-- Without a byte, `in` waits while the latch is lowered. -/
theorem execInp_of_nothing (a : Operand) (ho : s.offered = []) (hc : s.cancel = false) :
    execInp a s = .next (s.wait .waitIn) := by
  rw [execInp_nil a ho, hc]
  rfl

/-- Only `in` takes a byte, the one on offer. -/
theorem Effect.offered_cases (h : Effect i s t) :
    (t.offered = s.offered ∧ t.taken = s.taken) ∨
      ∃ a b, i = .inp a ∧ s.offered = b :: t.offered ∧ t.taken = s.taken + 1 := by
  cases h with
  | received r b rest k n hi ho => exact .inr ⟨_, b, hi, ho, rfl⟩
  | receivedFault a b rest k f hi ho => exact .inr ⟨a, b, hi, ho, rfl⟩
  | fault | halted | moved | wrote | popped | pushed | returned | stored | emitted | waitsOut
  | waitsIn | cancelled => exact .inl ⟨rfl, rfl⟩

/-! ## The latch and the other instructions (R154) -/

/-- `s` with the cancel latch at `c`. -/
def State.withLatch (s : State) (c : Bool) : State := { s with cancel := c }

variable {c : Bool}

/-- The resolver does not look at the latch, and a fault leaves it. -/
theorem withLatch_withVal {p : Nat} {o : Operand} {k k' : Word → State}
    (hk : ∀ v, k' v = (k v).withLatch c) :
    (s.withLatch c).withVal p o k' = (s.withVal p o k).withLatch c :=
  withVal_map (u := (·.withLatch c)) (u' := (·.withLatch c)) k k' rfl (fun _ => rfl) hk

theorem withLatch_withTgt {o : Operand} {v : Word} {k : State → State}
    (hk : ∀ t : State, k (t.withLatch c) = (k t).withLatch c) :
    (s.withLatch c).withTgt o v k = (s.withTgt o v k).withLatch c :=
  withTgt_map (u := (·.withLatch c)) (u' := (·.withLatch c)) k k rfl (fun _ => rfl) (fun _ => rfl) hk

theorem withLatch_ite {p : Prop} [Decidable p] {t t' u u' : State} (ht : t' = t.withLatch c)
    (hu : u' = u.withLatch c) : (if p then t' else u') = (if p then t else u).withLatch c := by
  rw [ht, hu]
  exact (apply_ite (·.withLatch c) p t u).symm

theorem withLatch_binaryRule (f : Word → Word → Word) (a b o : Operand) :
    (s.withLatch c).binaryRule f a b o = (s.binaryRule f a b o).withLatch c :=
  withLatch_withVal fun _ => withLatch_withVal fun _ => withLatch_withTgt fun _ => rfl

theorem withLatch_unaryRule (f : Word → Word) (a b : Operand) :
    (s.withLatch c).unaryRule f a b = (s.unaryRule f a b).withLatch c :=
  withLatch_withVal fun _ => withLatch_withTgt fun _ => rfl

/-- What an instruction other than `in` does is done alike with the latch at `c`. -/
theorem exec_withLatch (hi : ∀ a, i ≠ .inp a) :
    ∃ t, exec i s = .next t ∧ exec i (s.withLatch c) = .next (t.withLatch c) := by
  have htop : (s.withLatch c).topWord = s.topWord := rfl
  cases i with
  | inp a => exact absurd rfl (hi a)
  | halt | nop => exact ⟨_, rfl, rfl⟩
  | set a b | not a b => exact ⟨_, rfl, congrArg _ (withLatch_unaryRule _ a b)⟩
  | eq a b o | gt a b o | add a b o | mult a b o | and a b o | or a b o =>
    exact ⟨_, rfl, congrArg _ (withLatch_binaryRule _ a b o)⟩
  | mod a b o =>
    exact ⟨_, rfl, congrArg Host.Outcome.next <| withLatch_withVal fun _ =>
      withLatch_withVal fun _ => withLatch_ite rfl (withLatch_withTgt fun _ => rfl)⟩
  | jmp a =>
    exact ⟨_, rfl, congrArg Host.Outcome.next (withLatch_withVal fun _ => rfl)⟩
  | jt a b | jf a b =>
    exact ⟨_, rfl, congrArg Host.Outcome.next <| withLatch_withVal fun _ =>
      withLatch_withVal fun _ => withLatch_ite rfl rfl⟩
  | push a | call a | out a =>
    exact ⟨_, rfl, congrArg Host.Outcome.next <| withLatch_withVal fun _ => withLatch_ite rfl rfl⟩
  | pop a =>
    refine ⟨_, rfl, congrArg Host.Outcome.next ?_⟩
    rw [htop]
    cases s.topWord with
    | none => rfl
    | some v => exact withLatch_withTgt fun _ => rfl
  | ret =>
    refine ⟨_, rfl, congrArg Host.Outcome.next ?_⟩
    rw [htop]
    cases s.topWord with
    | none => rfl
    | some t => rfl
  | rmem a b =>
    refine ⟨_, rfl, congrArg Host.Outcome.next <| withLatch_withVal fun x => ?_⟩
    have hread : (s.withLatch c).memRead x.toNat = s.memRead x.toNat := rfl
    rw [hread]
    cases s.memRead x.toNat with
    | error f => rfl
    | ok w => exact withLatch_withTgt fun _ => rfl
  | wmem a b =>
    refine ⟨_, rfl, congrArg Host.Outcome.next <| withLatch_withVal fun x =>
      withLatch_withVal fun w => ?_⟩
    obtain hx | hx := Nat.lt_or_ge 32767 x.toNat
    · rw [memWrite_of_gt hx, memWrite_of_gt hx]
      rfl
    · rw [memWrite_of_le hx, memWrite_of_le hx]
      rfl

end Sys2Proof.Machine

open Sys2Proof Sys2Proof.Machine

/-- Settles O22: `halt` is `State.haltNormal`. -/
theorem haltEndsRunNormally : Obligations.HaltEndsRunNormally := fun _ => rfl

/-- Settles O23: the value, then the sink; the latch is not looked at. -/
theorem outEmitsLowByteOrWaits : Obligations.OutEmitsLowByteOrWaits := by
  refine fun s a => ⟨fun x hp hx => ?_, fun _ hf => congrArg _ (withVal_of_fault hf _)⟩
  rw [← setWidth_eight]
  exact congrArg _ (withVal_of_worth hp hx _)

/-- Settles O24, case by case: `execInp_of_lowered`, `execInp_of_cancelled`, `execInp_of_nothing`. -/
theorem inTakesByteOrWaitsOrIsCancelled : Obligations.InTakesByteOrWaitsOrIsCancelled := by
  refine fun s a => ⟨?_, fun b rest fr ho hc hf => ?_, execInp_of_cancelled a, execInp_of_nothing a⟩
  · rintro r b rest hp rfl ho hc
    exact (execInp_of_lowered _ ho hc).trans (congrArg _ (receive_reg hp))
  · exact (execInp_of_lowered a ho hc).trans (congrArg _ (receive_of_targetFault hf))

/-- Settles O25: the choice is `execInp_of_tie`, and a byte taken goes the way of O24. -/
theorem inWithByteAndCancelDoesEither : Obligations.InWithByteAndCancelDoesEither := by
  intro s a b rest ho hc
  have htie := execInp_of_tie a ho hc
  refine ⟨?_, fun fr hf => ?_⟩
  · rintro r hp rfl
    rw [receive_reg (s := s.countTie) hp] at htie
    exact htie
  · rw [receive_of_targetFault (s := s.countTie) hf] at htie
    exact htie

/-- Settles O26: `nop` is `State.advance 1`. -/
theorem nopOnlyAdvancesIp : Obligations.NopOnlyAdvancesIp := fun _ => rfl

/-- Settles O54, by `Effect.outTrace_cases` and `Effect.offered_cases`. -/
theorem channelsChangeOnlyByInAndOut : Obligations.ChannelsChangeOnlyByInAndOut := by
  intro i s t h
  have he := effect_of_exec h
  refine ⟨?_, he.offered_cases⟩
  obtain hsame | ⟨a, v, hi, -, -, happ⟩ := he.outTrace_cases
  · exact .inl hsame
  · exact .inr ⟨a, _, hi, happ⟩

/-- Settles O58, by `exec_withLatch`. -/
theorem onlyInObservesTheCancelLatch : Obligations.OnlyInObservesTheCancelLatch := by
  intro i s t c hi h
  obtain ⟨t', ht', hc⟩ := exec_withLatch (s := s) (c := c) hi
  obtain rfl : t' = t := by simpa [ht'] using h
  exact hc
end

section
/-! SUPPORT. The progress of the engine (50_interfaces_and_protocol.md R172; log 19): from every running
state the engine's turn comes, and it completes what it can. -/

namespace Sys2Proof.Machine

variable {i : Instr} {s t u : State} {e : Event}

/-! ## What lets a turn end inside an instruction -/

theorem atIp_of_inp (h : s.mem.get s.ip.toNat = 20) : ∃ a, s.atIp = some (.inp a) := by
  unfold State.atIp
  rw [h]
  exact ⟨_, rfl⟩

/-- An instruction that is not complete lacks what it waits for. -/
theorem Effect.top_or_lacks (h : Effect i s t) :
    t.phase = .top ∨ (∃ a, i = .inp a ∧ s.offered = [] ∧ s.cancel = false) ∨
      ∃ a, i = .out a ∧ s.sinkReady = false := by
  cases h with
  | waitsIn a hi ho hc => exact .inr (.inl ⟨a, hi, ho, hc⟩)
  | waitsOut a v hi _ _ hs => exact .inr (.inr ⟨a, hi, hs⟩)
  | fault | halted | moved | wrote | popped | pushed | returned | stored | emitted | cancelled
  | received | receivedFault => exact .inl rfl

/-- The same of a running core's turn, by the opcode word at `ip`. -/
theorem Turn.top_or_lacks (h : Turn s t) (hr : s.run = .running) :
    t.phase = .top ∨ (s.mem.get s.ip.toNat = 20 ∧ s.offered = [] ∧ s.cancel = false) ∨
      (s.mem.get s.ip.toNat = 19 ∧ s.sinkReady = false) := by
  cases h with
  | still hs => exact absurd hr hs
  | cancelledAtTop | fetchFault => exact .inl rfl
  | ran i t _ _ hi he =>
    obtain htop | ⟨a, rfl, ho, hc⟩ | ⟨a, rfl, hs⟩ := (effect_of_exec he).top_or_lacks
    · exact .inl htop
    · exact .inr (.inl ⟨atIp_inp hi, ho, hc⟩)
    · exact .inr (.inr ⟨(atIp_out hi).1, hs⟩)

/-- A turn that can go on completes the current instruction, or ends the run: in each place of the cycle,
what the instruction could lack is there. -/
theorem phase_top_of_canGoOn (hi : s.Inv) (hr : s.run = .running) (hg : s.CanGoOn)
    (h : s.cycle = .next t) : t.phase = .top := by
  obtain ⟨t', ht', hturn⟩ := cycle_turn s
  obtain rfl : t' = t := by simpa [ht'] using h
  obtain htop | ⟨hop, ho, hc⟩ | ⟨hop, hs⟩ := hturn.top_or_lacks hr
  · exact htop
  · unfold State.CanGoOn at hg
    cases hp : s.phase with
    | top => simp [hp, hop, ho, hc] at hg
    | waitIn => simp [hp, ho, hc] at hg
    | waitOut =>
      obtain ⟨-, -, hop', -⟩ := hi.waitsInOut hp
      simp [hop] at hop'
  · unfold State.CanGoOn at hg
    cases hp : s.phase with
    | top =>
      have hc : s.cancel = true := by simpa [hp, hop] using hg
      rw [cycle_cancelled hr hp hc] at h
      cases h
      rfl
    | waitIn =>
      obtain ⟨-, -, hop'⟩ := hi.waitsInInp hp
      simp [hop] at hop'
    | waitOut => simp [hp, hs] at hg

/-- What lets an instruction go on stays until the engine's turn. -/
theorem State.KeptUntilTurn.canGoOn (hk : s.KeptUntilTurn t) (hg : s.CanGoOn) : t.CanGoOn := by
  obtain ⟨more, hmore⟩ := hk.onOffer
  have hoff : s.offered ≠ [] → t.offered ≠ [] := fun h => by simp [hmore, h]
  unfold State.CanGoOn at hg ⊢
  rw [hk.phase, hk.mem, hk.ip]
  cases hp : s.phase with
  | top =>
    rw [hp] at hg
    exact hg.imp hk.latch fun ⟨hout, hin⟩ => ⟨hout, hoff ∘ hin⟩
  | waitIn =>
    rw [hp] at hg
    exact hg.imp hoff hk.latch
  | waitOut =>
    rw [hp] at hg
    exact hk.sink hp hg

/-! ## The engine's turn comes -/

/-- A running core that meets the invariant, with no START still to come. -/
structure State.UnderWay (s : State) : Prop where
  inv : s.Inv
  running : s.run = .running
  noStart : Event.start ∉ s.schedule

/-- Some number of moves of the other agents leads to the engine's turn, made in a state that keeps what
`s` has for it. -/
def State.ReachesTurn (s : State) : Prop :=
  ∃ (k : Nat) (t u : State), Sys2Proof.core.run k s = .next t ∧ t.EngineMoves u ∧
    s.KeptUntilTurn u ∧ u.UnderWay

/-- Striking off a move leaves the core under way, and the move is no START. -/
theorem State.UnderWay.of_movesBy (h : s.UnderWay) (hm : s.MovesBy e u) :
    e ≠ .start ∧ u.UnderWay := by
  have hmoves : e ≠ .start ∧ Event.start ∉ u.schedule := by
    have hno := h.noStart
    obtain ⟨rest, hs, rfl⟩ | ⟨hs, -, rfl, rfl⟩ | ⟨n, rest, -, -, hround, rfl⟩ := hm
    · simpa [hs, eq_comm] using hno
    · exact ⟨nofun, hno⟩
    · simpa [hround, eq_comm] using start_not_mem_laterRound n
  obtain ⟨rest, n, rfl⟩ := movesBy_frame hm
  exact ⟨hmoves.1, h.inv.of_boundary s.cancel s.sinkReady s.offered rest n, h.running, hmoves.2⟩

theorem movesBy_kept (hm : s.MovesBy e u) : s.KeptUntilTurn u := by
  obtain ⟨rest, n, rfl⟩ := movesBy_frame hm
  have hk := kept_rfl s
  exact ⟨rfl, rfl, rfl, rfl, rfl, rfl, rfl, hk.latch, hk.onOffer, hk.sink⟩

theorem run_succ_of_step (h : step s = .next t) (k : Nat) :
    Sys2Proof.core.run (k + 1) s = Sys2Proof.core.run k t := by
  have e := Host.Core.run.eq_2 Sys2Proof.core s k
  rwa [show Sys2Proof.core.step s = .next t from h] at e

/-- The next move is the engine's turn, or a move of another agent, and then it is enough that the turn
comes from the state this move leads to. -/
theorem State.UnderWay.reachesTurn_of_movesBy (h : s.UnderWay) (hm : s.MovesBy e u)
    (hnext : e ≠ .engine → ∀ t : State, t.UnderWay → t.schedule = u.schedule → t.ReachesTurn) :
    s.ReachesTurn := by
  obtain ⟨hstart, hu⟩ := h.of_movesBy hm
  by_cases he : e = .engine
  · subst he
    exact ⟨0, s, u, rfl, hm, movesBy_kept hm, hu⟩
  · obtain ⟨t, hstep, hkept, hsched⟩ := outside_kept h.inv h.running hm hstart he
    have ht : t.UnderWay := ⟨everyStepKeepsTheInvariant s t h.inv hstep,
      hkept.run.trans h.running, hsched ▸ hu.noStart⟩
    obtain ⟨k, t', u', hrun, hm', hkept', hu'⟩ := hnext he t ht hsched
    exact ⟨k + 1, t', u', (run_succ_of_step hstep k).trans hrun, hm', kept_trans hkept hkept', hu'⟩

/-- A schedule with a turn of the engine in it leads there. -/
theorem State.UnderWay.reachesTurn_of_mem {moves : List Event} (h : s.UnderWay)
    (hs : s.schedule = moves) (hmem : Event.engine ∈ moves) : s.ReachesTurn := by
  induction moves generalizing s with
  | nil => cases hmem
  | cons e rest ih =>
    refine h.reachesTurn_of_movesBy (.inl ⟨rest, hs, rfl⟩) fun he t ht hsched => ?_
    exact ih ht hsched (List.mem_of_ne_of_mem (Ne.symm he) hmem)

/-- Whatever is still to come, the engine's turn comes: when the schedule is used up, the next move is the
engine's, or the first of a round that has a turn of the engine in it. -/
theorem State.UnderWay.reachesTurn {moves : List Event} (h : s.UnderWay)
    (hs : s.schedule = moves) : s.ReachesTurn := by
  induction moves generalizing s with
  | nil =>
    cases hl : s.later with
    | none =>
      exact h.reachesTurn_of_movesBy (.inr (.inl ⟨hs, hl, rfl, rfl⟩)) fun he => absurd rfl he
    | some n =>
      obtain ⟨e, rest, hround⟩ := laterRound_cons n
      refine h.reachesTurn_of_movesBy (.inr (.inr ⟨n, rest, hs, hl, hround, rfl⟩))
        fun he t ht hsched => ?_
      have hmem : Event.engine ∈ e :: rest := hround ▸ engine_mem_laterRound n
      exact ht.reachesTurn_of_mem hsched (List.mem_of_ne_of_mem (Ne.symm he) hmem)
  | cons e rest ih =>
    exact h.reachesTurn_of_movesBy (.inl ⟨rest, hs, rfl⟩) fun _ _ ht hsched => ih ht hsched

/-- The engine's turn in a blocked `in` with the latch raised ends the run. -/
theorem cycle_of_blockedIn (hi : s.Inv) (hp : s.phase = .waitIn) (ho : s.offered = [])
    (hc : s.cancel = true) : s.cycle = .next s.endedCancelled := by
  obtain ⟨hr, hip, hop⟩ := hi.waitsInInp hp
  obtain ⟨a, ha⟩ := atIp_of_inp hop
  have hf : s.Fetches := ⟨hr, fun htop => absurd (hp.symm.trans htop) nofun⟩
  rw [cycle_runs hf hip ha]
  exact execInp_of_cancelled a ho hc

end Sys2Proof.Machine

open Sys2Proof Sys2Proof.Machine

/-- Settles O31: `cycle_of_blockedIn`; and the turn that `State.UnderWay.reachesTurn` leads to completes
what can go on, by `phase_top_of_canGoOn`. -/
theorem raisedLatchEndsBlockedIn : Obligations.RaisedLatchEndsBlockedIn := by
  refine ⟨fun s t hi hm hp ho hc => ?_, fun s hi hr hs => ?_⟩
  · rw [step_of_engineMoves hm]
    obtain ⟨rest, n, rfl⟩ := movesBy_frame hm
    exact cycle_of_blockedIn (hi.of_boundary s.cancel s.sinkReady s.offered rest n) hp ho hc
  · obtain ⟨k, t, u, hrun, hm, hkept, hu⟩ := State.UnderWay.reachesTurn ⟨hi, hr, hs⟩ rfl
    obtain ⟨v, hv, hturn⟩ := cycle_turn u
    refine ⟨k, t, u, v, hrun, hm, (step_of_engineMoves hm).trans hv, hkept, fun hg => ?_, ?_⟩
    · exact phase_top_of_canGoOn hu.inv hu.running (hkept.canGoOn hg) hv
    · rw [hturn.controlKept.schedule]
      exact hu.noStart
end

section
/-! SUPPORT. Waits and dispatch in the engine's cycle (40_engine_and_operands.md R80 to R83,
60_exceptions.md R184, R200): the place in the cycle has no part in an instruction's effect, a waiting
instruction that lacks what it waits for changes nothing, and an opcode word above 21 is dispatched to no
instruction. -/

namespace Sys2Proof

/-- The table of 30_encoding.md R66 ends at opcode 21. -/
theorem Instr.opcode_le (i : Instr) : i.opcode ≤ 21 := by
  cases i <;> exact Nat.le_of_ble_eq_true rfl

/-- Above 21 the opcode map has no row (R67), whatever the operand words. -/
theorem decodeOp_of_opcode_gt {op : Word} (h : 22 ≤ op.toNat) (wa wb wc : Word) :
    decodeOp op wa wb wc = none := by
  cases hd : decodeOp op wa wb wc with
  | none => rfl
  | some i =>
    obtain rfl := Machine.decodeOp_opcode hd
    have hle := i.opcode_le
    rw [BitVec.toNat_ofNat] at h
    omega

end Sys2Proof

namespace Sys2Proof.Machine

variable {s : State} {p : Phase}

/-! ## The place in the cycle and the instruction (log 26) -/

/-- `s` with the engine at the place `p` of its cycle. -/
def State.atPhase (s : State) (p : Phase) : State := { s with phase := p }

/-- The resolver does not look at the place in the cycle, and a fault sets it. -/
theorem atPhase_withVal {q : Nat} {o : Operand} {k k' : Word → State} (hk : ∀ v, k' v = k v) :
    (s.atPhase p).withVal q o k' = s.withVal q o k :=
  withVal_map (u := (·.atPhase p)) (u' := id) k k' rfl (fun _ => rfl) hk

theorem atPhase_withTgt {o : Operand} {v : Word} {k : State → State}
    (hk : ∀ t : State, k (t.atPhase p) = k t) : (s.atPhase p).withTgt o v k = s.withTgt o v k :=
  withTgt_map (u := (·.atPhase p)) (u' := id) k k rfl (fun _ => rfl) (fun _ => rfl) hk

theorem atPhase_binaryRule (f : Word → Word → Word) (a b c : Operand) :
    (s.atPhase p).binaryRule f a b c = s.binaryRule f a b c :=
  atPhase_withVal fun _ => atPhase_withVal fun _ => atPhase_withTgt fun _ => rfl

theorem atPhase_unaryRule (f : Word → Word) (a b : Operand) :
    (s.atPhase p).unaryRule f a b = s.unaryRule f a b :=
  atPhase_withVal fun _ => atPhase_withTgt fun _ => rfl

theorem atPhase_receive (a : Operand) (b : Byte) (rest : List Byte) :
    (s.atPhase p).receive a b rest = s.receive a b rest :=
  atPhase_withTgt (s := s.takeByte rest) fun _ => rfl

theorem atPhase_execInp (a : Operand) : execInp a (s.atPhase p) = execInp a s := by
  cases ho : s.offered with
  | nil =>
    rw [execInp_nil a ho, execInp_nil (s := s.atPhase p) a ho]
    rfl
  | cons b rest =>
    have htie : (s.atPhase p).countTie.receive a b rest = s.countTie.receive a b rest :=
      atPhase_receive (s := s.countTie) a b rest
    rw [execInp_cons a ho, execInp_cons (s := s.atPhase p) a ho, atPhase_receive, htie]
    rfl

/-- Every way through an instruction ends in `State.retire`, in `State.wait` or in the end of the run,
and each of these sets the place in the cycle anew. -/
theorem exec_atPhase (i : Instr) : exec i (s.atPhase p) = exec i s := by
  cases i with
  | halt | nop => rfl
  | set a b | not a b => exact congrArg Host.Outcome.next (atPhase_unaryRule _ a b)
  | eq a b c | gt a b c | add a b c | mult a b c | and a b c | or a b c =>
    exact congrArg Host.Outcome.next (atPhase_binaryRule _ a b c)
  | mod a b c =>
    refine congrArg Host.Outcome.next (atPhase_withVal fun x => atPhase_withVal fun y => ?_)
    exact congrArg (ite (y = 0) _) (atPhase_withTgt fun _ => rfl)
  | push a | jmp a | call a | out a =>
    exact congrArg Host.Outcome.next (atPhase_withVal fun _ => rfl)
  | jt a b | jf a b =>
    exact congrArg Host.Outcome.next (atPhase_withVal fun _ => atPhase_withVal fun _ => rfl)
  | pop a =>
    obtain hs | ⟨below, v, hs⟩ := s.stack.eq_nil_or_concat'
    · exact (execPop_nil (s := s.atPhase p) a hs).trans (execPop_nil a hs).symm
    · calc execPop a (s.atPhase p)
          = .next ((s.atPhase p).withTgt a v fun t => t.dropWord.advance 2) := execPop_concat a hs
        _ = .next (s.withTgt a v fun t => t.dropWord.advance 2) :=
            congrArg _ (atPhase_withTgt fun _ => rfl)
        _ = execPop a s := (execPop_concat a hs).symm
  | ret =>
    obtain hs | ⟨below, v, hs⟩ := s.stack.eq_nil_or_concat'
    · exact (execRet_nil (s := s.atPhase p) hs).trans (execRet_nil hs).symm
    · exact (execRet_concat (s := s.atPhase p) hs).trans (execRet_concat hs).symm
  | rmem a b =>
    refine congrArg Host.Outcome.next (atPhase_withVal fun x => ?_)
    obtain hx | hx := Nat.lt_or_ge 32767 x.toNat
    · rw [memRead_of_gt hx, memRead_of_gt hx]
      rfl
    · rw [memRead_of_le hx, memRead_of_le hx]
      exact atPhase_withTgt fun _ => rfl
  | wmem a b =>
    refine congrArg Host.Outcome.next (atPhase_withVal fun x => atPhase_withVal fun w => ?_)
    obtain hx | hx := Nat.lt_or_ge 32767 x.toNat
    · rw [memWrite_of_gt hx, memWrite_of_gt hx]
      rfl
    · rw [memWrite_of_le hx, memWrite_of_le hx]
      rfl
  | inp a => exact atPhase_execInp a

/-! ## Waits -/

theorem atIp_of_out (h : s.mem.get s.ip.toNat = 19) :
    s.atIp = some (.out (Operand.ofWord (s.mem.get (s.ip.toNat + 1)))) := by
  unfold State.atIp
  rw [h]
  rfl

/-- Waiting at the place of the wait changes nothing. -/
theorem wait_eq_self (h : s.phase = p) : s.wait p = s := by
  subst h
  rfl

theorem fetches_of_waiting (hr : s.run = .running) (hp : s.phase ≠ .top) : s.Fetches :=
  ⟨hr, fun htop => absurd htop hp⟩

/-- The engine's turn in a waiting `out` whose sink is not ready, with the latch raised or not. -/
theorem cycle_of_waitOut (hi : s.Inv) (hp : s.phase = .waitOut) (hs : s.sinkReady = false) :
    s.cycle = .next s := by
  obtain ⟨hr, hip, hop, hw⟩ := hi.waitsInOut hp
  obtain ⟨x, hx⟩ := Option.ne_none_iff_exists'.mp hw
  have hf : s.Fetches := fetches_of_waiting hr (by rw [hp]; exact nofun)
  calc s.cycle
      = exec (.out (Operand.ofWord (s.mem.get (s.ip.toNat + 1)))) s :=
        cycle_runs hf (by omega) (atIp_of_out hop)
    _ = .next (s.wait .waitOut) := by
        rw [(outEmitsLowByteOrWaits s _).1 x hip hx, if_neg (Bool.eq_false_iff.mp hs)]
        rfl
    _ = .next s := by rw [wait_eq_self hp]

/-- The engine's turn in a waiting `in` with no byte on offer and the latch lowered. -/
theorem cycle_of_waitIn (hi : s.Inv) (hp : s.phase = .waitIn) (ho : s.offered = [])
    (hc : s.cancel = false) : s.cycle = .next s := by
  obtain ⟨hr, hip, hop⟩ := hi.waitsInInp hp
  obtain ⟨a, ha⟩ := atIp_of_inp hop
  have hf : s.Fetches := fetches_of_waiting hr (by rw [hp]; exact nofun)
  calc s.cycle
      = exec (.inp a) s := cycle_runs hf hip ha
    _ = .next (s.wait .waitIn) := execInp_of_nothing a ho hc
    _ = .next s := by rw [wait_eq_self hp]

/-- When nothing more comes from outside, a core that its engine's turn leaves as it is stays so. -/
theorem run_of_cycle_fixed (hs : s.schedule = []) (hl : s.later = none) (h : s.cycle = .next s)
    (n : Nat) : Sys2Proof.core.run n s = .next s :=
  run_of_fixed ((step_of_engineMoves (.inr (.inl ⟨hs, hl, rfl, rfl⟩))).trans h) n

/-! ## Dispatch -/

/-- A fetching turn over an opcode word above 21 ends the run with InvalidOpcode. -/
theorem cycle_of_opcode_gt (hf : s.Fetches) (hp : s.ip.toNat ≤ 32767)
    (hop : 22 ≤ (s.mem.get s.ip.toNat).toNat) :
    s.cycle = .next (s.faulted
      (s.record .invalidOpcode (some s.ip) (some (s.mem.get s.ip.toNat)))) := by
  have hnone : s.atIp = none := decodeOp_of_opcode_gt hop ..
  rw [cycle_of_fetches hf, fetchAndRun_in hp, hnone]

end Sys2Proof.Machine

open Sys2Proof Sys2Proof.Machine

/-- Settles O32: by the invariant a waiting core stands at its `in` or `out`, and that instruction, run
again, waits again (`cycle_of_waitOut`, `cycle_of_waitIn`). -/
theorem waitChangesNoStateHoweverLong : Obligations.WaitChangesNoStateHoweverLong := by
  refine fun n s hi hs hl => ⟨fun hp hsink => ?_, fun hp ho hc => ?_⟩
  · exact run_of_cycle_fixed hs hl (cycle_of_waitOut hi hp hsink) n
  · exact run_of_cycle_fixed hs hl (cycle_of_waitIn hi hp ho hc) n

/-- Settles O33, by `exec_atPhase`. -/
theorem resumedInstructionIsTheSame : Obligations.ResumedInstructionIsTheSame :=
  fun i _ _ => exec_atPhase i

/-- Settles O29, by `cycle_of_opcode_gt`. -/
theorem opcodeAboveTwentyOneFaults : Obligations.OpcodeAboveTwentyOneFaults := by
  refine ⟨rfl, fun s t hm hf hp hop => ?_⟩
  rw [step_of_engineMoves hm]
  have hft := fetches_of_engineMoves hm hf
  obtain ⟨_, _, rfl⟩ := movesBy_frame hm
  exact cycle_of_opcode_gt hft hp hop
end

section
/-! SUPPORT. The moves of controller, producer and consumer (50_interfaces_and_protocol.md R162 to R169),
and the construction of a core (70_reset_and_hazards.md R210 to R212). -/

namespace Sys2Proof.Machine

variable {s : State} {cap : Option Nat} {image : List Word}

theorem start_of_idle (h : s.run = .idle) : s.start = .next { s with run := .running } := by
  unfold State.start
  rw [h]

theorem start_of_ne_idle (h : s.run ≠ .idle) : s.start = .refused .startedTwice := by
  unfold State.start
  split
  · contradiction
  · rfl

theorem takeResult_of_idle (h : s.run = .idle) : s.takeResult = .refused .resultBeforeStart := by
  unfold State.takeResult
  rw [h]

theorem takeResult_of_taken (hr : s.run ≠ .idle) (ht : s.resultTaken = true) :
    s.takeResult = .refused .resultTakenTwice := by
  unfold State.takeResult
  split
  · contradiction
  · rw [if_pos ht]

theorem takeResult_of_published {r : Result} (hr : s.run ≠ .idle) (ht : s.resultTaken = false)
    (hres : s.result = some r) : s.takeResult = .next { s with resultTaken := true } := by
  unfold State.takeResult
  split
  · contradiction
  · rw [ht, hres]
    rfl

theorem takeResult_of_unpublished (hr : s.run ≠ .idle) (ht : s.resultTaken = false)
    (hres : s.result = none) : s.takeResult = .next s := by
  unfold State.takeResult
  split
  · contradiction
  · rw [ht, hres]
    rfl

/-- The core constructed from an image that fits. -/
def State.constructed (cap : Option Nat) (image : List Word) : State :=
  { State.reset with mem := Memory.loadFrom 0 image, stackCap := cap }

theorem ofImage_of_le (h : image.length ≤ 32768) :
    State.ofImage cap image = .next (State.constructed cap image) := if_pos h

theorem ofImage_of_gt (h : 32768 < image.length) :
    State.ofImage cap image = .refused .imageTooLong := if_neg (Nat.not_le.mpr h)

/-- The image laid out from address 0 is canonical memory. -/
theorem loadFrom_zero_wf (h : image.length ≤ 32768) : (Memory.loadFrom 0 image).wf = true :=
  Memory.loadFrom_wfFrom (by omega)

/-- It reads as the image, and as zero behind it. -/
theorem get_loadFrom_zero (h : image.length ≤ 32768) (a : Nat) :
    (Memory.loadFrom 0 image).get a = image.getD a 0 := by
  rw [Memory.get_loadFrom (by omega), if_pos (Nat.zero_le a), Nat.sub_zero]

/-- A constructed core is the reset core but for a canonical memory and the capacity of its stack, which
is empty. -/
theorem constructed_inv (h : image.length ≤ 32768) : (State.constructed cap image).Inv :=
  { invariantHoldsAtReset with
    memCanonical := loadFrom_zero_wf h
    waitsInInp := nofun
    waitsInOut := nofun
    stackBounded := fun n _ => Nat.zero_le n }

end Sys2Proof.Machine

open Sys2Proof Sys2Proof.Machine

/-- Settles O35: START looks at the run status only, which striking off the move leaves. -/
theorem startBeginsAnIdleCoreOnce : Obligations.StartBeginsAnIdleCoreOnce := by
  intro s t hm
  rw [step_of_movesBy hm]
  obtain ⟨_, _, rfl⟩ := movesBy_frame hm
  exact ⟨fun hr => start_of_idle hr, fun hr => start_of_ne_idle hr⟩

/-- Settles O36: each of these moves is a record update, of the state without the move. -/
theorem outsideMovesWriteOneFieldEach : Obligations.OutsideMovesWriteOneFieldEach := by
  refine fun s t => ⟨step_of_movesBy, fun b hm => ?_, fun _ => step_of_movesBy⟩
  rw [step_of_movesBy hm]
  obtain ⟨_, _, rfl⟩ := movesBy_frame hm
  rfl

/-- Settles O37, case by case: what RESULT looks at, striking off the move leaves. -/
theorem resultIsTakenAtMostOnce : Obligations.ResultIsTakenAtMostOnce := by
  intro s t hm
  rw [step_of_movesBy hm]
  obtain ⟨_, _, rfl⟩ := movesBy_frame hm
  exact ⟨fun hr => takeResult_of_idle hr, fun hr ht => takeResult_of_taken hr ht,
    fun _ hr ht hres => takeResult_of_published hr ht hres,
    fun hr ht hres => takeResult_of_unpublished hr ht hres⟩

/-- Settles O41, by `loadFrom_zero_wf` and `get_loadFrom_zero`. -/
theorem constructionLoadsImageThenZeros : Obligations.ConstructionLoadsImageThenZeros :=
  fun _ _ => ⟨fun h => ⟨_, ofImage_of_le h, loadFrom_zero_wf h, get_loadFrom_zero h⟩, ofImage_of_gt⟩

/-- Settles O45: a construction that is not refused is of an image that fits (`constructed_inv`). -/
theorem invariantHoldsAfterConstruction : Obligations.InvariantHoldsAfterConstruction := by
  intro cap image s h
  obtain hlen | hlen := Nat.lt_or_ge 32768 image.length
  · rw [ofImage_of_gt hlen] at h
    cases h
  · rw [ofImage_of_le hlen] at h
    cases h
    exact constructed_inv hlen
end
